-- ==== Sys2Proof/Word.lean ====
section
/-! DEFINITION. The byte, the one data width of the block (20_memory.md R36). -/

namespace Sys2Proof

/-- One byte, bit 0 the least significant (00_scope.md, Notation). -/
abbrev Byte := BitVec 8

end Sys2Proof
end

