-- ==== Sys2Proof/Config.lean ====
section
/-! DEFINITION. The parameters of the block (00_scope.md R7 to R13) and the free values (93_implementation_defined.md). -/

namespace Sys2Proof.Config

/-- `FRAME_SIZE` (00_scope.md R7): the bytes of a frame and of the Frame Buffer. -/
abbrev frameSize : Nat := 1024

/-- `MARK0` (00_scope.md R9). -/
abbrev mark0 : Byte := 0x55#8

/-- `MARK1` (00_scope.md R9). -/
abbrev mark1 : Byte := 0xAA#8

/-- The run value of `MARK0` (00_scope.md R10). -/
abbrev runValue0 : Byte := 0x00#8

/-- The run value of `MARK1` (00_scope.md R10). -/
abbrev runValue1 : Byte := 0xFF#8

/-- `POS_BITS` (00_scope.md R12): open in the spec, its default 32 taken (DESIGN CHOICE, safe: log 6). -/
abbrev posBits : Nat := 32

/-- `BW_BITS` (00_scope.md R13): the least width the spec allows (DESIGN CHOICE, safe: log 7). -/
abbrev bwBits : Nat := 11

/-- `LEN_BITS` (00_scope.md R13, 30_encoding.md R54). -/
abbrev lenBits : Nat := 15

/-- A stream position, `STREAM_LEN` or `L` (00_scope.md R12). -/
abbrev PosWord := BitVec posBits

/-- A count of frame bytes, 0 to `FRAME_SIZE` (00_scope.md R13). -/
abbrev BwWord := BitVec bwBits

/-- A combined run length (00_scope.md R13). -/
abbrev LenWord := BitVec lenBits

/-! Free values: nothing in Lean can evaluate them or prove a value of them. -/

/-- FREE VALUE (U4; log 4, safe): what a Frame Buffer byte that no write has addressed reads as, fixed once for each index. -/
opaque powerOnByte : Nat → Byte

/-- FREE VALUE (log 3, safe): what the stream port answers at an index where no stream byte has been placed. -/
opaque unplacedStreamByte : Nat → Byte

/-- FREE VALUE (U7; log 12, safe): how many further writes of an abandoned call land before a hardware reset takes hold. -/
opaque abandonedWrites : Nat → Nat

/-- FREE VALUE (U3; log 13, safe): `frame_complete` as read while `busy = 1`. -/
opaque busyFrameComplete : Nat → Bool

/-- FREE VALUE (U3; log 13, safe): `position` as observed while `busy = 1`. -/
opaque busyPosition : Nat → PosWord

/-- FREE VALUE (U3; log 13, safe): `escape_value` as observed while `busy = 1`. -/
opaque busyEscapeValue : Nat → Option Byte

/-- FREE VALUE (U3; log 13, safe): `partial_run_length` as observed while `busy = 1`. -/
opaque busyPartialRunLength : Nat → Option (BitVec 7)

/-- FREE VALUE (U3; log 13, safe): `bytes_written` as observed while `busy = 1`. -/
opaque busyBytesWritten : Nat → BwWord

/-- FREE VALUE (U2; log 13, safe): a Frame Buffer byte read by another agent while `busy = 1`. -/
opaque busyBufferByte : Nat → Byte

/-- FREE VALUE (D20, N11; log 19, safe): the pump's interval for a frame rate whose quotient the spec does not state. -/
opaque openInterval : Nat → Nat

end Sys2Proof.Config
end

