-- ==== Sys2Proof/Syntax.lean ====
section
/-! DEFINITION. The instructions: one constructor for each row of spec/opcode_table.json; and the phase of the state machine. -/

namespace Sys2Proof

/-- The two escape markers (00_scope.md R9): the values `escape_value` can hold beside none (10_state.md R17). -/
inductive Marker where
  /-- `MARK0`, 0x55. -/
  | m55
  /-- `MARK1`, 0xAA. -/
  | mAA
  deriving DecidableEq, Repr

/-- The phase of the state machine with what it remembers: the pair (`escape_value`, `partial_run_length`) in the
three-constructor form of 10_state.md R22, in which the pair that U5 calls unreachable cannot be written. -/
inductive Phase where
  /-- Ground: no escape pending. -/
  | ground
  /-- EscapeActive: `escape_value = some(m)`, `partial_run_length = none`. -/
  | escapeActive (m : Marker)
  /-- RunLengthContinuation: `escape_value = some(m)`, `partial_run_length = some(p)`. -/
  | runLengthContinuation (m : Marker) (p : BitVec 7)
  deriving DecidableEq, Repr

/-- The three levels of spec/opcode_table.json (30_encoding.md section 7). -/
inductive Level where
  /-- One byte in one phase. -/
  | microStep
  /-- One complete stream sequence from phase Ground. -/
  | sequence
  /-- One command of the host. -/
  | hostCommand
  deriving DecidableEq, Repr

/-- The two commands of the command port (10_state.md R27). -/
inductive Command where
  /-- `DECODE_FRAME` (42_decode_frame.md R78). -/
  | decodeFrame
  /-- `RESET` (42_decode_frame.md R92). -/
  | reset
  deriving DecidableEq, Repr

/-- The rows of spec/opcode_table.json, in the table's order. -/
inductive Instr where
  /-- `LIT v` (R74): a literal byte. -/
  | lit (v : Byte)
  /-- `ESCLIT 0x55` (R75). -/
  | escLit55
  /-- `RUNS 0x55, n` (R76). -/
  | runs55 (n : BitVec 7)
  /-- `RUNL 0x55, l + 128 * h` (R77). -/
  | runl55 (l : BitVec 7) (h : Byte)
  /-- `ESCLIT 0xAA` (R75). -/
  | escLitAA
  /-- `RUNS 0xAA, n` (R76). -/
  | runsAA (n : BitVec 7)
  /-- `RUNL 0xAA, l + 128 * h` (R77). -/
  | runlAA (l : BitVec 7) (h : Byte)
  /-- `G.LIT` (R68): a literal byte in Ground. -/
  | gLit (v : Byte)
  /-- `G.ESC` with marker 0x55 (R69). -/
  | gEsc55
  /-- `G.ESC` with marker 0xAA (R69). -/
  | gEscAA
  /-- `E.LITM` (R70): the byte 0x00 in EscapeActive. -/
  | eLitm
  /-- `E.RUNS` (R71): a short run length in EscapeActive. -/
  | eRuns (n : BitVec 7)
  /-- `E.RUNLO` (R72): the low part of a long run length in EscapeActive. -/
  | eRunlo (l : BitVec 7)
  /-- `C.RUNHI` (R73): the high part of a run length in RunLengthContinuation. -/
  | cRunhi (h : Byte)
  /-- `DECODE_FRAME` (R78). -/
  | decodeFrame
  /-- `RESET` (R92). -/
  | reset
  deriving DecidableEq, Repr

/-- The level of an instruction's row in the opcode table. -/
def Instr.level : Instr → Level
  | .lit _ | .escLit55 | .runs55 _ | .runl55 _ _ | .escLitAA | .runsAA _ | .runlAA _ _ => .sequence
  | .gLit _ | .gEsc55 | .gEscAA | .eLitm | .eRuns _ | .eRunlo _ | .cRunhi _ => .microStep
  | .decodeFrame | .reset => .hostCommand

end Sys2Proof
end

