-- ==== Sys2Proof/WellFormed.lean ====
section
/-! DEFINITION. Which instructions have an encoding: the operand constraints of spec/opcode_table.json and 30_encoding.md R50 to R52. -/

namespace Sys2Proof

/-- A literal is no marker value (R51), a short run length is not 0 (R52: the byte 0x00 is the escape-literal). -/
def Instr.wf : Instr → Bool
  | .lit v => v != Config.mark0 && v != Config.mark1
  | .gLit v => v != Config.mark0 && v != Config.mark1
  | .runs55 n => n != 0#7
  | .runsAA n => n != 0#7
  | .eRuns n => n != 0#7
  | .escLit55 | .escLitAA | .runl55 _ _ | .runlAA _ _ => true
  | .gEsc55 | .gEscAA | .eLitm | .eRunlo _ | .cRunhi _ => true
  | .decodeFrame | .reset => true

end Sys2Proof
end

