-- ==== Sys2Proof/Decode.lean ====
section
/-! DEFINITION. The stream encoding (30_encoding.md): bit fields, the byte classification, the sequence decoder, the encoder,
the opcode table as data, and the decoder of a table word. -/

namespace Sys2Proof

/-- The marker byte itself (00_scope.md R9). -/
def Marker.byte : Marker → Byte
  | .m55 => Config.mark0
  | .mAA => Config.mark1

/-- The marker test of phase Ground (30_encoding.md R51). -/
def markerOf (c : Byte) : Option Marker :=
  if c = Config.mark0 then some .m55 else if c = Config.mark1 then some .mAA else none

/-- `c[7]`, the form selector of byte 1 (30_encoding.md R50). -/
def highBit (c : Byte) : Bool := c.getLsbD 7

/-- `c[6:0]` = `c & 0x7F` (00_scope.md, Notation). -/
def low7 (c : Byte) : BitVec 7 := c.setWidth 7

/-- The byte `0nnnnnnn` (30_encoding.md R50, form F2b). -/
def shortByte (n : BitVec 7) : Byte := n.setWidth 8

/-- The byte `1lllllll` (30_encoding.md R50, form F3). -/
def longByte (l : BitVec 7) : Byte := 0x80#8 ||| l.setWidth 8

/-- The escape micro-step that a marker selects in Ground (41_stream_bytes.md R69). -/
def gEscOf : Marker → Instr
  | .m55 => .gEsc55
  | .mAA => .gEscAA

/-- Form F2a for each marker (30_encoding.md R50). -/
def escLitOf : Marker → Instr
  | .m55 => .escLit55
  | .mAA => .escLitAA

/-- Form F2b for each marker (30_encoding.md R50). -/
def runsOf : Marker → BitVec 7 → Instr
  | .m55, n => .runs55 n
  | .mAA, n => .runsAA n

/-- Form F3 for each marker (30_encoding.md R50). -/
def runlOf : Marker → BitVec 7 → Byte → Instr
  | .m55, l, h => .runl55 l h
  | .mAA, l, h => .runlAA l h

/-- The micro-step that a byte is, in the phase in which it is consumed (30_encoding.md R51, R52, R55). Total: in every
phase every byte has exactly one meaning (R57). -/
def decodeByte (ph : Phase) (c : Byte) : Instr :=
  match ph with
  | .ground =>
    match markerOf c with
    | some m => gEscOf m
    | none => .gLit c
  | .escapeActive _ =>
    if c = 0x00#8 then .eLitm
    else if highBit c = false then .eRuns (low7 c)
    else .eRunlo (low7 c)
  | .runLengthContinuation _ _ => .cRunhi c

/-- Why no complete sequence stands at the head of some bytes: they end too early (30_encoding.md R59). -/
inductive Cut where
  /-- There is no byte. -/
  | noByte
  /-- A marker is the last byte. -/
  | afterMarker (m : Marker)
  /-- A marker and the low part of a long run length are the last two bytes. -/
  | afterLow (m : Marker) (l : BitVec 7)
  deriving DecidableEq, Repr

/-- What the sequence decoder answers. -/
inductive Decoded where
  /-- A complete sequence and the bytes after it. -/
  | ok (i : Instr) (rest : List Byte)
  /-- The bytes end inside a sequence. -/
  | cut (why : Cut)
  deriving DecidableEq, Repr

/-- The instruction of a decoder's answer, if there is one. -/
def Decoded.instr? : Decoded → Option Instr
  | .ok i _ => some i
  | .cut _ => none

/-- The sequence at the head of some bytes, read from phase Ground (30_encoding.md R50, R56). -/
def decodeSequence : List Byte → Decoded
  | [] => .cut .noByte
  | b0 :: r0 =>
    match markerOf b0 with
    | none => .ok (.lit b0) r0
    | some m =>
      match r0 with
      | [] => .cut (.afterMarker m)
      | b1 :: r1 =>
        if b1 = 0x00#8 then .ok (escLitOf m) r1
        else if highBit b1 = false then .ok (runsOf m (low7 b1)) r1
        else
          match r1 with
          | [] => .cut (.afterLow m (low7 b1))
          | b2 :: r2 => .ok (runlOf m (low7 b1) b2) r2

/-- The bytes of an instruction in stream order (30_encoding.md R50, R60). A host command has none (R78, R92). -/
def encode : Instr → List Byte
  | .lit v => [v]
  | .escLit55 => [Config.mark0, 0x00#8]
  | .runs55 n => [Config.mark0, shortByte n]
  | .runl55 l h => [Config.mark0, longByte l, h]
  | .escLitAA => [Config.mark1, 0x00#8]
  | .runsAA n => [Config.mark1, shortByte n]
  | .runlAA l h => [Config.mark1, longByte l, h]
  | .gLit v => [v]
  | .gEsc55 => [Config.mark0]
  | .gEscAA => [Config.mark1]
  | .eLitm => [0x00#8]
  | .eRuns n => [shortByte n]
  | .eRunlo l => [longByte l]
  | .cRunhi h => [h]
  | .decodeFrame => []
  | .reset => []

/-! The opcode table as data (spec/opcode_table.json; conventions in 30_encoding.md section 7). -/

/-- The phase a micro-step row is for, without what the phase remembers. -/
inductive PhaseName where
  /-- Ground. -/
  | ground
  /-- EscapeActive. -/
  | escapeActive
  /-- RunLengthContinuation. -/
  | runLengthContinuation
  deriving DecidableEq, Repr

/-- The name of a phase. -/
def Phase.name : Phase → PhaseName
  | .ground => .ground
  | .escapeActive _ => .escapeActive
  | .runLengthContinuation _ _ => .runLengthContinuation

/-- One row of the table that has a bit pattern. `matchBits` and `maskBits` are the table's numbers, the first consumed
byte most significant. `start` is the phase in which the row's first byte is consumed. -/
structure OpcodeRow where
  /-- Its place in spec/opcode_table.json, counted from 0. -/
  index : Nat
  /-- Its mnemonic. -/
  mnemonic : String
  /-- Its level. -/
  level : Level
  /-- The phase of its first byte. -/
  start : PhaseName
  /-- Its length in bytes. -/
  lengthBytes : Nat
  /-- The fixed bits. -/
  matchBits : Nat
  /-- Which bits are fixed. -/
  maskBits : Nat
  /-- Among rows that match, the lower wins. -/
  priority : Nat
  deriving DecidableEq, Repr

/-- The rows of level `sequence`. -/
def sequenceRows : List OpcodeRow :=
  [ ⟨0, "LIT", .sequence, .ground, 1, 0x00, 0x00, 2⟩,
    ⟨1, "ESCLIT.55", .sequence, .ground, 2, 0x5500, 0xFFFF, 0⟩,
    ⟨2, "RUNS.55", .sequence, .ground, 2, 0x5500, 0xFF80, 1⟩,
    ⟨3, "RUNL.55", .sequence, .ground, 3, 0x558000, 0xFF8000, 0⟩,
    ⟨4, "ESCLIT.AA", .sequence, .ground, 2, 0xAA00, 0xFFFF, 0⟩,
    ⟨5, "RUNS.AA", .sequence, .ground, 2, 0xAA00, 0xFF80, 1⟩,
    ⟨6, "RUNL.AA", .sequence, .ground, 3, 0xAA8000, 0xFF8000, 0⟩ ]

/-- The rows of level `micro-step`. -/
def microStepRows : List OpcodeRow :=
  [ ⟨7, "G.LIT", .microStep, .ground, 1, 0x00, 0x00, 1⟩,
    ⟨8, "G.ESC.55", .microStep, .ground, 1, 0x55, 0xFF, 0⟩,
    ⟨9, "G.ESC.AA", .microStep, .ground, 1, 0xAA, 0xFF, 0⟩,
    ⟨10, "E.LITM", .microStep, .escapeActive, 1, 0x00, 0xFF, 0⟩,
    ⟨11, "E.RUNS", .microStep, .escapeActive, 1, 0x00, 0x80, 1⟩,
    ⟨12, "E.RUNLO", .microStep, .escapeActive, 1, 0x80, 0x80, 0⟩,
    ⟨13, "C.RUNHI", .microStep, .runLengthContinuation, 1, 0x00, 0x00, 0⟩ ]

/-- The place of an instruction's row in spec/opcode_table.json, counted from 0. -/
def Instr.rowIndex : Instr → Nat
  | .lit _ => 0
  | .escLit55 => 1
  | .runs55 _ => 2
  | .runl55 _ _ => 3
  | .escLitAA => 4
  | .runsAA _ => 5
  | .runlAA _ _ => 6
  | .gLit _ => 7
  | .gEsc55 => 8
  | .gEscAA => 9
  | .eLitm => 10
  | .eRuns _ => 11
  | .eRunlo _ => 12
  | .cRunhi _ => 13
  | .decodeFrame => 14
  | .reset => 15

/-- Bytes as one number, the first byte most significant (30_encoding.md section 7). -/
def numberOf (bs : List Byte) : Nat := bs.foldl (fun n b => n * 256 + b.toNat) 0

/-- Whether a row's pattern matches the bytes at the head of a list: there are enough of them, and `(b & mask) == match`. -/
def OpcodeRow.matches (r : OpcodeRow) (bs : List Byte) : Bool :=
  decide (r.lengthBytes ≤ bs.length) && decide (numberOf (bs.take r.lengthBytes) &&& r.maskBits = r.matchBits)

/-- The lower-priority-number row of two candidates. -/
def betterRow (r : OpcodeRow) : Option OpcodeRow → OpcodeRow
  | none => r
  | some q => if r.priority ≤ q.priority then r else q

/-- The row the table selects for some bytes in a phase: of the rows of that phase that match, the lowest priority number. -/
def selectRow (rows : List OpcodeRow) (ph : PhaseName) (bs : List Byte) : Option OpcodeRow :=
  match rows with
  | [] => none
  | r :: rs =>
    if r.start = ph ∧ r.matches bs = true then some (betterRow r (selectRow rs ph bs)) else selectRow rs ph bs

/-! Table words. -/

/-- The `k` bytes of a table word in stream order: the FIRST consumed byte is the most significant, as the table's
`match`, `mask` and `fixed` number them (30_encoding.md section 7; DESIGN CHOICE, safe: log 14). -/
def tableBytes : Nat → Nat → List Byte
  | 0, _ => []
  | k + 1, w => BitVec.ofNat 8 (w / 256 ^ k) :: tableBytes k w

/-- How many whole bytes `nbits` bits take. -/
def wholeBytes (nbits : Nat) : Nat := (nbits + 7) / 8

/-- The instruction a table word stands for, read in phase Ground (log 14): a word of one byte is a micro-step, a longer
one a sequence, any byte it has beyond `nbits` being 0. A word of no bits is no instruction (a host command has no bits). -/
def decodeTableWord (nbits w : Nat) : Option Instr :=
  match wholeBytes nbits with
  | 0 => none
  | 1 => some (decodeByte .ground (BitVec.ofNat 8 w))
  | k + 2 => (decodeSequence (tableBytes (k + 2) w ++ [0x00#8, 0x00#8])).instr?

end Sys2Proof
end

