-- ==== Sys2Proof/Machine/State.lean ====
section
/-! DEFINITION. The state of the machine as plain data (10_state.md), its fault and its refusals, and the state after reset. -/

namespace Sys2Proof.Machine

/-- A byte-indexed memory: (index, byte) pairs, indices strictly rising; an index that is not listed holds no value. -/
abbrev Memory := List Host.Cell

/-- The state. Fields of the block and of its ports by the spec's names; the last two are the model's own. -/
structure State where
  /-- `position` (R16): the index of the next stream byte to consume. -/
  position : Config.PosWord
  /-- `escape_value` and `partial_run_length` (R17, R18) as the phase they make (R20, R22). -/
  phase : Phase
  /-- `bytes_written` (R19). -/
  bytesWritten : Config.BwWord
  /-- The call in progress: some L, the sampled stream length, while `busy = 1`; none while `busy = 0` (R25, R26; log 9). -/
  call : Option Config.PosWord
  /-- `frame_complete` (R25). -/
  frameComplete : Bool
  /-- `STREAM_LEN`, driven by the host (R26). -/
  streamLen : Config.PosWord
  /-- The request on the command port, if there is one (R27; log 10). -/
  command : Option Command
  /-- The level of the reset input: true while it is asserted (R113; log 11). -/
  resetInput : Bool
  /-- The Encoded Stream behind the stream port (R24, R33); no step writes it. -/
  stream : Memory
  /-- The Frame Buffer behind the buffer port (R23, R34). -/
  frameBuffer : Memory
  /-- The model's own: how many free values have been drawn (log 13). -/
  draws : Nat
  /-- The model's own: the level of opcode-table row that one step runs (R66; log 1). -/
  grain : Level
  deriving DecidableEq, Repr

/-- Why the machine stops with a fault. -/
inductive Fault where
  /-- The host reads or writes Frame Buffer index `j`, which does not exist (R34). Raised by `hostReadBuffer` and
  `hostWriteBuffer` only, never by a step. Safe. -/
  | bufferIndexAbsent (j : Nat)
  deriving DecidableEq, Repr

/-- Why the model gives no meaning. -/
inductive Refusal where
  /-- An instruction without a meaning yet, by its mnemonic; no arm of `exec` raises it. Safe. -/
  | notModelled (mnemonic : String)
  /-- A command issued while `busy = 1` (R79, U1). Raised by `step`, `execDecodeFrame`, `execReset` and `hostIssue`. Safe. -/
  | commandWhileBusy
  /-- `exec` was given a byte step or a sequence whose row is for another phase than the state's (log 15). Raised by the
  meanings of `MicroSteps.lean` and `Sequences.lean`; `step` never does, since it decodes in the state's own phase. Safe. -/
  | wrongPhase
  /-- Another agent writes the Frame Buffer during a call (R121, U2). Raised by `hostWriteBuffer`. Safe. -/
  | bufferWriteWhileBusy
  /-- The host changes `STREAM_LEN` during a call (R122, U6). Raised by `hostDriveStreamLen`. Safe. -/
  | streamLenWhileBusy
  /-- A host move between the issue of a request and the step that takes it, which are one indivisible event (R27;
  log 10). Raised by the moves of `HostPorts.lean`. Safe. -/
  | requestPending
  /-- A command issued while the reset input is asserted (R117; log 11). Raised by `hostIssue`. Safe. -/
  | commandDuringReset
  deriving DecidableEq, Repr

/-- The state right after reset, nothing placed behind the ports yet (R31, R113, R114). `STREAM_LEN` (log 5), the empty
command port (log 10), the released reset input (log 11) and the model's own fields (logs 1 and 13) have values the
model names. -/
def State.reset : State where
  position := 0
  phase := .ground
  bytesWritten := 0
  call := none
  frameComplete := false
  streamLen := 0
  command := none
  resetInput := false
  stream := []
  frameBuffer := []
  draws := 0
  grain := .microStep

end Sys2Proof.Machine
end

