-- ==== Sys2Proof/Machine/Operands.lean ====
section
/-! DEFINITION. Operands: the run value of a marker, the two forms of a run length, and the fields of the Decoder State that
the phase holds. -/

namespace Sys2Proof.Machine

/-- `RunValue(m)` (40_emit_and_guards.md R61). -/
def runValue : Marker → Byte
  | .m55 => Config.runValue0
  | .mAA => Config.runValue1

/-- A short run length: the byte's value (30_encoding.md R53). -/
def shortLength (n : BitVec 7) : Nat := n.toNat

/-- A long run length: `p | (h << 7)` on 15 bits, no mask on `h` (30_encoding.md R54, 90_conflicts.md C1; log 18). -/
def longLength (p : BitVec 7) (h : Byte) : Config.LenWord :=
  p.setWidth Config.lenBits ||| (h.setWidth Config.lenBits <<< 7)

/-- `escape_value` (10_state.md R17). -/
def State.escapeValue (s : State) : Option Byte :=
  match s.phase with
  | .ground => none
  | .escapeActive m => some m.byte
  | .runLengthContinuation m _ => some m.byte

/-- `partial_run_length` (10_state.md R18). -/
def State.partialRunLength (s : State) : Option (BitVec 7) :=
  match s.phase with
  | .ground => none
  | .escapeActive _ => none
  | .runLengthContinuation _ p => some p

/-- The phase as a function of the two optional fields (10_state.md R20). The pair that U5 calls unreachable, and an
`escape_value` that is no marker, have none. -/
def phaseOfFields (escapeValue : Option Byte) (partialRunLength : Option (BitVec 7)) : Option Phase :=
  match escapeValue, partialRunLength with
  | none, none => some .ground
  | none, some _ => none
  | some e, none => (markerOf e).map .escapeActive
  | some e, some p => (markerOf e).map (.runLengthContinuation · p)

end Sys2Proof.Machine
end

