-- ==== Sys2Proof/Machine/Ops.lean ====
section
/-! DEFINITION. The named operations over memory and registers: reading and writing a memory, the two access primitives of
20_memory.md, `Emit` and `FullReset`. There is no operation for taking an exception or returning from one, because the
block has neither (60_exceptions.md R93, R101). -/

namespace Sys2Proof.Machine

/-- The byte a memory lists at an index; none for an index that is not listed. -/
def Memory.read : Memory → Nat → Option Byte
  | [], _ => none
  | (a, b) :: m, i => if a = i then some b else Memory.read m i

/-- A memory with byte `v` at index `i` and every other index as before, its indices kept rising. -/
def Memory.write : Memory → Nat → Byte → Memory
  | [], i, v => [(i, v)]
  | (a, b) :: m, i, v =>
    if i < a then (i, v) :: (a, b) :: m
    else if i = a then (i, v) :: m
    else (a, b) :: Memory.write m i v

/-- `k` writes of `v` at `j`, `j + 1`, … in ascending order (20_memory.md R42). -/
def Memory.fill (m : Memory) (j : Nat) : Nat → Byte → Memory
  | 0, _ => m
  | k + 1, v => Memory.fill (Memory.write m j v) (j + 1) k v

/-- Successive bytes written from index `j` upward. -/
def Memory.place (m : Memory) (j : Nat) : List Byte → Memory
  | [] => m
  | b :: bs => Memory.place (Memory.write m j b) (j + 1) bs

/-- `k` bytes from index `j` upward, in ascending order, as `src` lists them (an index `src` does not list is skipped). -/
def Memory.copy (m src : Memory) (j : Nat) : Nat → Memory
  | 0 => m
  | k + 1 =>
    match Memory.read src j with
    | some b => Memory.copy (Memory.write m j b) src (j + 1) k
    | none => Memory.copy m src (j + 1) k

/-- The canonical form: indices strictly rising. (An unlisted index holds no value, so no entry can equal it.) -/
abbrev Memory.wf (m : Memory) : Prop := m.Pairwise (fun x y => x.1 < y.1)

/-- Every listed index is below `n`. -/
abbrev Memory.below (m : Memory) (n : Nat) : Prop := ∀ c ∈ m, c.1 < n

/-- The state of an outcome that is a next state. -/
def nextState? (o : Host.Outcome State Fault Refusal) : Option State :=
  match o with
  | .next s => some s
  | .fault _ => none
  | .refused _ => none

/-- Run a second instruction where the first one answers a next state. -/
def andThen (o : Host.Outcome State Fault Refusal) (f : State → Host.Outcome State Fault Refusal) :
    Host.Outcome State Fault Refusal :=
  match o with
  | .next s => f s
  | .fault r => .fault r
  | .refused r => .refused r

/-- `busy` (10_state.md R25): a call is in progress. -/
def State.busy (s : State) : Bool := s.call.isSome

/-- What the Frame Buffer lists at an index: none where no write has addressed it. -/
def State.frameByte (s : State) (j : Nat) : Option Byte := Memory.read s.frameBuffer j

/-- The Frame Buffer byte as a permitted reader sees it: an unwritten byte reads as a free value fixed once (U4; log 4). -/
def State.frameByteSeen (s : State) (j : Nat) : Byte := (s.frameByte j).getD (Config.powerOnByte j)

/-- `StreamRead(i)` (20_memory.md R33): the port always answers (log 17), at an index where no byte has been placed with
a free value (log 3). -/
def streamRead (s : State) (i : Nat) : Byte := (Memory.read s.stream i).getD (Config.unplacedStreamByte i)

/-- `FRAME_SIZE - bytes_written` (40_emit_and_guards.md R62). -/
def capacity (s : State) : Nat := Config.frameSize - s.bytesWritten.toNat

/-- `Emit(n, v)` (40_emit_and_guards.md R62): `min(n, capacity)` writes at the cursor, which advances by that amount; the
excess is discarded (R63). -/
def emit (n : Nat) (v : Byte) (s : State) : State :=
  { s with
    frameBuffer := Memory.fill s.frameBuffer s.bytesWritten.toNat (min n (capacity s)) v
    bytesWritten := s.bytesWritten + BitVec.ofNat Config.bwBits (min n (capacity s)) }

/-- `position <- position + n` for `n` consumed bytes (R65, R74 to R77). -/
def advance (n : Nat) (s : State) : State :=
  { s with position := s.position + BitVec.ofNat Config.posBits n }

/-- The phase after a micro-step or a sequence. -/
def setPhase (ph : Phase) (s : State) : State := { s with phase := ph }

/-- The request taken off the command port. -/
def takeRequest (s : State) : State := { s with command := none }

/-- `FullReset()` (42_decode_frame.md R80). -/
def fullReset (s : State) : State :=
  { s with position := 0, phase := .ground, bytesWritten := 0 }

end Sys2Proof.Machine
end

