-- ==== Sys2Proof/Machine/Flags.lean ====
section
/-! DEFINITION. The two status bits (10_state.md R25, the only flags of the block) and the two guards (20_memory.md R39). -/

namespace Sys2Proof.Machine

/-- The buffer-boundary guard: the buffer is not full (R39, R82). -/
def bufferNotFull (s : State) : Bool := decide (s.bytesWritten.toNat < Config.frameSize)

/-- The stream-end guard for a stream of length `L`: the stream is not exhausted (R39, R82). -/
def streamNotExhausted (L : Config.PosWord) (s : State) : Bool := decide (s.position.toNat < L.toNat)

/-- Both guards of the main loop, for the call in progress (42_decode_frame.md R82); there is none outside a call. -/
def guardsHold (s : State) : Bool :=
  match s.call with
  | none => false
  | some L => bufferNotFull s && streamNotExhausted L s

/-- Acceptance of `DECODE_FRAME`: `busy` rises, `STREAM_LEN` is sampled, and the loop reset runs if the position is at or
past the end of the stream (42_decode_frame.md R79, R81). -/
def acceptCall (s : State) : State :=
  if s.position.toNat < s.streamLen.toNat then { s with call := some s.streamLen }
  else { fullReset s with call := some s.streamLen }

/-- The end of a call (42_decode_frame.md R83, R84, R85): the full buffer is tested first; `busy` falls as
`frame_complete` is written. -/
def endCall (s : State) : State :=
  if s.bytesWritten.toNat = Config.frameSize then { s with bytesWritten := 0, frameComplete := true, call := none }
  else { s with frameComplete := false, call := none }

end Sys2Proof.Machine
end

