-- ==== Sys2Proof/Machine/MicroSteps.lean ====
section
/-! DEFINITION. The micro-steps (41_stream_bytes.md R68 to R73) and `ByteStep` (40_emit_and_guards.md R65). Each meaning is
the whole step for its fetched byte, the advance of `position` included. -/

namespace Sys2Proof.Machine

/-- `G.LIT` (R68): emit the byte once, stay in Ground. -/
def litStep (c : Byte) (s : State) : State := emit 1 c (advance 1 s)

/-- `G.ESC` (R69): remember the marker. -/
def escStep (m : Marker) (s : State) : State := setPhase (.escapeActive m) (advance 1 s)

/-- `E.LITM` (R70): emit the marker byte itself once, return to Ground. -/
def litmStep (m : Marker) (s : State) : State := setPhase .ground (emit 1 m.byte (advance 1 s))

/-- `E.RUNS` (R71): emit `n` copies of the run value, return to Ground. -/
def runsStep (m : Marker) (n : BitVec 7) (s : State) : State :=
  setPhase .ground (emit (shortLength n) (runValue m) (advance 1 s))

/-- `E.RUNLO` (R72): keep the low seven bits of the run length. -/
def runloStep (m : Marker) (l : BitVec 7) (s : State) : State :=
  setPhase (.runLengthContinuation m l) (advance 1 s)

/-- `C.RUNHI` (R73): combine the two parts, emit that many copies of the run value, return to Ground. -/
def runhiStep (m : Marker) (p : BitVec 7) (h : Byte) (s : State) : State :=
  setPhase .ground (emit (longLength p h).toNat (runValue m) (advance 1 s))

/-- `ByteStep` (R65): fetch, advance, and dispatch on the phase; the choice within a phase is that of 30_encoding.md R51,
R52 and R55. -/
def byteStep (s : State) : State :=
  match s.phase with
  | .ground =>
    match markerOf (streamRead s s.position.toNat) with
    | some m => escStep m s
    | none => litStep (streamRead s s.position.toNat) s
  | .escapeActive m =>
    if streamRead s s.position.toNat = 0x00#8 then litmStep m s
    else if highBit (streamRead s s.position.toNat) = false then runsStep m (low7 (streamRead s s.position.toNat)) s
    else runloStep m (low7 (streamRead s s.position.toNat)) s
  | .runLengthContinuation m p => runhiStep m p (streamRead s s.position.toNat) s

/-- `G.LIT` (R68), a row of phase Ground. -/
def execGLit (v : Byte) (s : State) : Host.Outcome State Fault Refusal :=
  match s.phase with
  | .ground => .next (litStep v s)
  | .escapeActive _ => .refused .wrongPhase
  | .runLengthContinuation _ _ => .refused .wrongPhase

/-- `G.ESC` with marker 0x55 (R69), a row of phase Ground. -/
def execGEsc55 (s : State) : Host.Outcome State Fault Refusal :=
  match s.phase with
  | .ground => .next (escStep .m55 s)
  | .escapeActive _ => .refused .wrongPhase
  | .runLengthContinuation _ _ => .refused .wrongPhase

/-- `G.ESC` with marker 0xAA (R69), a row of phase Ground. -/
def execGEscAA (s : State) : Host.Outcome State Fault Refusal :=
  match s.phase with
  | .ground => .next (escStep .mAA s)
  | .escapeActive _ => .refused .wrongPhase
  | .runLengthContinuation _ _ => .refused .wrongPhase

/-- `E.LITM` (R70), a row of phase EscapeActive. -/
def execELitm (s : State) : Host.Outcome State Fault Refusal :=
  match s.phase with
  | .ground => .refused .wrongPhase
  | .escapeActive m => .next (litmStep m s)
  | .runLengthContinuation _ _ => .refused .wrongPhase

/-- `E.RUNS` (R71), a row of phase EscapeActive. -/
def execERuns (n : BitVec 7) (s : State) : Host.Outcome State Fault Refusal :=
  match s.phase with
  | .ground => .refused .wrongPhase
  | .escapeActive m => .next (runsStep m n s)
  | .runLengthContinuation _ _ => .refused .wrongPhase

/-- `E.RUNLO` (R72), a row of phase EscapeActive. -/
def execERunlo (l : BitVec 7) (s : State) : Host.Outcome State Fault Refusal :=
  match s.phase with
  | .ground => .refused .wrongPhase
  | .escapeActive m => .next (runloStep m l s)
  | .runLengthContinuation _ _ => .refused .wrongPhase

/-- `C.RUNHI` (R73), the row of phase RunLengthContinuation. -/
def execCRunhi (h : Byte) (s : State) : Host.Outcome State Fault Refusal :=
  match s.phase with
  | .ground => .refused .wrongPhase
  | .escapeActive _ => .refused .wrongPhase
  | .runLengthContinuation m p => .next (runhiStep m p h s)

end Sys2Proof.Machine
end

