-- ==== Sys2Proof/Machine/Commands.lean ====
section
/-! DEFINITION. The host commands `DECODE_FRAME` and `RESET` (42_decode_frame.md R78 to R92) and the hardware reset
(70_reset_and_hazards.md R113 to R115). -/

namespace Sys2Proof.Machine

/-- The main loop (R82), at most `fuel` byte steps. -/
def callLoop : Nat → State → State
  | 0, s => s
  | fuel + 1, s => if guardsHold s then callLoop fuel (byteStep s) else s

/-- How many byte steps the call in progress can still take (R86): `L - position`. -/
def remaining (s : State) : Nat :=
  match s.call with
  | none => 0
  | some L => L.toNat - s.position.toNat

/-- The main loop of the call in progress, run until a guard fails (R82, R86). -/
def loopExit (s : State) : State := callLoop (remaining s) s

/-- The rest of the call in progress, its end included (R82 to R85). -/
def finishCall (s : State) : State := endCall (loopExit s)

/-- `DECODE_FRAME` (R78), the whole call; refused while `busy = 1` (R79, U1). -/
def execDecodeFrame (s : State) : Host.Outcome State Fault Refusal :=
  if s.busy then .refused .commandWhileBusy else .next (finishCall (acceptCall s))

/-- `RESET` (R92): `FullReset` and `frame_complete <- 0`; refused while `busy = 1` (R79, U1). -/
def execReset (s : State) : Host.Outcome State Fault Refusal :=
  if s.busy then .refused .commandWhileBusy else .next { fullReset s with frameComplete := false }

/-- The Frame Buffer a reset during a call leaves (R115, U7; log 12): the writes made so far and a prefix, in ascending
index order and of a free length, of those the complete call would still have made. -/
def abandonedBuffer (s : State) : Memory :=
  Memory.copy s.frameBuffer (loopExit s).frameBuffer s.bytesWritten.toNat
    (min (Config.abandonedWrites s.draws) ((loopExit s).bytesWritten.toNat - s.bytesWritten.toNat))

/-- A request on the command port counts as accepted when it is issued (R27, one indivisible request): `DECODE_FRAME`
has begun its call. -/
def underway (s : State) : State :=
  match s.command with
  | none => s
  | some .reset => takeRequest s
  | some .decodeFrame => acceptCall (takeRequest s)

/-- The Decoder State and the status bits at their reset values; the stream, `STREAM_LEN` and, outside a call, the Frame
Buffer unchanged (R113, R114, R115). -/
def resetBlock (s : State) : State :=
  if s.busy then
    { fullReset s with
      call := none, frameComplete := false, frameBuffer := abandonedBuffer s, draws := s.draws + 1 }
  else { fullReset s with frameComplete := false }

/-- The reset input asserted: whatever call is in progress is abandoned (R115; log 11). -/
def hardwareReset (s : State) : State := resetBlock (underway s)

end Sys2Proof.Machine
end

