-- ==== Sys2Proof/Machine/Sequences.lean ====
section
/-! DEFINITION. The stream sequences, the instructions of the opcode table (41_stream_bytes.md R74 to R77). Every sequence
starts and ends in phase Ground and advances `position` by its length. -/

namespace Sys2Proof.Machine

/-- What the four forms share: in phase Ground, pass the sequence's bytes and emit `n` copies of `v`. -/
def runSequence (bytes n : Nat) (v : Byte) (s : State) : Host.Outcome State Fault Refusal :=
  match s.phase with
  | .ground => .next (emit n v (advance bytes s))
  | .escapeActive _ => .refused .wrongPhase
  | .runLengthContinuation _ _ => .refused .wrongPhase

/-- `LIT v` (R74). -/
def execLit (v : Byte) (s : State) : Host.Outcome State Fault Refusal := runSequence 1 1 v s

/-- `ESCLIT 0x55` (R75). -/
def execEscLit55 (s : State) : Host.Outcome State Fault Refusal := runSequence 2 1 (Marker.byte .m55) s

/-- `RUNS 0x55, n` (R76). -/
def execRuns55 (n : BitVec 7) (s : State) : Host.Outcome State Fault Refusal :=
  runSequence 2 (shortLength n) (runValue .m55) s

/-- `RUNL 0x55, l | (h << 7)` (R77). -/
def execRunl55 (l : BitVec 7) (h : Byte) (s : State) : Host.Outcome State Fault Refusal :=
  runSequence 3 (longLength l h).toNat (runValue .m55) s

/-- `ESCLIT 0xAA` (R75). -/
def execEscLitAA (s : State) : Host.Outcome State Fault Refusal := runSequence 2 1 (Marker.byte .mAA) s

/-- `RUNS 0xAA, n` (R76). -/
def execRunsAA (n : BitVec 7) (s : State) : Host.Outcome State Fault Refusal :=
  runSequence 2 (shortLength n) (runValue .mAA) s

/-- `RUNL 0xAA, l | (h << 7)` (R77). -/
def execRunlAA (l : BitVec 7) (h : Byte) (s : State) : Host.Outcome State Fault Refusal :=
  runSequence 3 (longLength l h).toNat (runValue .mAA) s

end Sys2Proof.Machine
end

