-- ==== Sys2Proof/Machine/Dispatch.lean ====
section
/-! DEFINITION. One arm for each constructor of Instr. -/

namespace Sys2Proof.Machine

def exec (i : Instr) (s : State) : Host.Outcome State Fault Refusal :=
  match i with
  | .lit v => Sys2Proof.Machine.execLit v s
  | .escLit55 => Sys2Proof.Machine.execEscLit55 s
  | .runs55 n => Sys2Proof.Machine.execRuns55 n s
  | .runl55 l h => Sys2Proof.Machine.execRunl55 l h s
  | .escLitAA => Sys2Proof.Machine.execEscLitAA s
  | .runsAA n => Sys2Proof.Machine.execRunsAA n s
  | .runlAA l h => Sys2Proof.Machine.execRunlAA l h s
  | .gLit v => Sys2Proof.Machine.execGLit v s
  | .gEsc55 => Sys2Proof.Machine.execGEsc55 s
  | .gEscAA => Sys2Proof.Machine.execGEscAA s
  | .eLitm => Sys2Proof.Machine.execELitm s
  | .eRuns n => Sys2Proof.Machine.execERuns n s
  | .eRunlo l => Sys2Proof.Machine.execERunlo l s
  | .cRunhi h => Sys2Proof.Machine.execCRunhi h s
  | .decodeFrame => Sys2Proof.Machine.execDecodeFrame s
  | .reset => Sys2Proof.Machine.execReset s

end Sys2Proof.Machine
end

