-- ==== Sys2Proof/Machine/Fetch.lean ====
section
/-! DEFINITION. Fetching: which instruction stands at `position` for each level of step (log 1), and placing a table word
where the next step fetches it. -/

namespace Sys2Proof.Machine

/-- Up to `k` stream bytes from index `i` upward, none at or past `L` (20_memory.md R39). -/
def bytesFrom (s : State) (L : Nat) : Nat → Nat → List Byte
  | 0, _ => []
  | k + 1, i => if i < L then streamRead s i :: bytesFrom s L k (i + 1) else []

/-- The bytes of the longest sequence, from `position`, as far as the stream of the call in progress goes. -/
def fetchWindow (s : State) : List Byte :=
  match s.call with
  | none => []
  | some L => bytesFrom s L.toNat 3 s.position.toNat

/-- The instruction at `position`. A step of level sequence runs the complete sequence that stands there in phase Ground;
where there is none (the phase is another one, or the stream ends inside the sequence, R59) it runs the micro-step, as a
step of the other levels does. -/
def fetchInstr (s : State) : Instr :=
  match s.grain, s.phase with
  | .sequence, .ground =>
    match (decodeSequence (fetchWindow s)).instr? with
    | some i => i
    | none => decodeByte s.phase (streamRead s s.position.toNat)
  | _, _ => decodeByte s.phase (streamRead s s.position.toNat)

/-- The bytes of a table word, filled up with 0 to the longest sequence. -/
def wordBytes (nbits w : Nat) : List Byte :=
  tableBytes (wholeBytes nbits) w ++ List.replicate (3 - wholeBytes nbits) 0x00#8

/-- Where a table word of `k` bytes is placed: at `position`, or at 0 if the positions end before its last byte. -/
def placeAt (s : State) (k : Nat) : Config.PosWord :=
  if s.position.toNat + k < 2 ^ Config.posBits then s.position else 0

/-- The state in which a call is running and the very next step runs the table word (log 14): its bytes are the stream's
at `position`, the phase is Ground, both guards hold, no request and no reset is pending, and the level of step is that
of the word (one byte: micro-step; more: sequence). -/
def placeWord (s : State) (nbits w : Nat) : State :=
  let bs := wordBytes nbits w
  let p := placeAt s bs.length
  let L := p + BitVec.ofNat Config.posBits bs.length
  { s with
    position := p
    phase := .ground
    bytesWritten := if s.bytesWritten.toNat < Config.frameSize then s.bytesWritten else 0
    call := some L
    streamLen := L
    command := none
    resetInput := false
    stream := Memory.place s.stream p.toNat bs
    grain := if wholeBytes nbits ≤ 1 then .microStep else .sequence }

end Sys2Proof.Machine
end

