-- ==== Sys2Proof/Machine/Turn.lean ====
section
/-! DEFINITION. What one step does: the reset input, the command port, the call in progress, or nothing. -/

namespace Sys2Proof.Machine

/-- A request on the command port, taken off it. At the level of host commands the whole command is one step; at the finer
levels `DECODE_FRAME` is accepted in this step and its bytes follow in later ones (R66; log 1). -/
def commandTurn (c : Command) (s : State) : Host.Outcome State Fault Refusal :=
  match c with
  | .reset => exec .reset s
  | .decodeFrame =>
    match s.grain with
    | .hostCommand => exec .decodeFrame s
    | .microStep => .next (acceptCall s)
    | .sequence => .next (acceptCall s)

/-- One step of a call in progress: the instruction at `position` while both guards hold, else the end of the call (R82 to
R84). At the level of host commands the rest of the call is one step. -/
def callTurn (s : State) : Host.Outcome State Fault Refusal :=
  match s.grain with
  | .hostCommand => .next (finishCall s)
  | .microStep => if guardsHold s then exec (fetchInstr s) s else .next (endCall s)
  | .sequence => if guardsHold s then exec (fetchInstr s) s else .next (endCall s)

/-- One step. A request while `busy = 1` is refused (R79, U1); an asserted reset input comes before everything else
(R113; log 11); an idle block with no request holds its state (60_exceptions.md R111). -/
def turn (s : State) : Host.Outcome State Fault Refusal :=
  if s.busy && s.command.isSome then .refused .commandWhileBusy
  else if s.resetInput then .next (hardwareReset s)
  else
    match s.command with
    | some c => commandTurn c (takeRequest s)
    | none => if s.busy then callTurn s else .next s

end Sys2Proof.Machine
end

