-- ==== Sys2Proof/Machine/Step.lean ====
section
/-! DEFINITION. One step of the machine, and the placing of a table word for the next step. -/

namespace Sys2Proof.Machine

/-- One step: see `turn`. -/
def step (s : State) : Host.Outcome State Fault Refusal := turn s

/-- The state whose very next step runs a table word: see `placeWord`. -/
def State.withFetchWord (s : State) (nbits w : Nat) : State := placeWord s nbits w

end Sys2Proof.Machine
end

