-- ==== Sys2Proof/Machine/HostPorts.lean ====
section
/-! DEFINITION. The host's moves on the block's ports (10_state.md R25 to R29, 70_reset_and_hazards.md R117 to R124). They
are no steps of the block: the outside world makes them between steps. -/

namespace Sys2Proof.Machine

/-- The bytes of an Encoded Stream behind the stream port and `STREAM_LEN` driven with their number (R117): a launch
parameter, for a machine that has taken no command yet (R46; log 2). -/
def State.withStream (s : State) (bytes : List Byte) : State :=
  { s with stream := Memory.place [] 0 bytes, streamLen := BitVec.ofNat Config.posBits bytes.length }

/-- Issue a command (R27, R79, R120): the very next step takes it. -/
def hostIssue (c : Command) (s : State) : Host.Outcome State Fault Refusal :=
  if s.busy then .refused .commandWhileBusy
  else if s.command.isSome then .refused .requestPending
  else if s.resetInput then .refused .commandDuringReset
  else .next { s with command := some c }

/-- Drive `STREAM_LEN` (R26, R122, U6). -/
def hostDriveStreamLen (L : Config.PosWord) (s : State) : Host.Outcome State Fault Refusal :=
  if s.busy then .refused .streamLenWhileBusy
  else if s.command.isSome then .refused .requestPending
  else .next { s with streamLen := L }

/-- Assert the reset input (R113, R115): while it is asserted the block holds its reset values. -/
def hostAssertReset (s : State) : State := { hardwareReset s with resetInput := true }

/-- Release the reset input (R113): when an asserted input is released the block holds its reset values. Releasing an input
that is not asserted is no event the spec names; here it changes nothing, a call in progress included (DESIGN CHOICE:
log 11). -/
def hostReleaseReset (s : State) : State :=
  if s.resetInput then { hardwareReset s with resetInput := false } else s

/-- Read `busy` (R25): it always reads correctly (U3). -/
def hostReadBusy (s : State) : Host.Outcome Bool Fault Refusal :=
  if s.command.isSome then .refused .requestPending else .next s.busy

/-- Read `frame_complete` (R25, R124): a free value while `busy = 1` (U3; log 13). -/
def hostReadFrameComplete (s : State) : Host.Outcome (Bool × State) Fault Refusal :=
  if s.command.isSome then .refused .requestPending
  else if s.busy then .next (Config.busyFrameComplete s.draws, { s with draws := s.draws + 1 })
  else .next (s.frameComplete, s)

/-- What the observation port shows: the four fields of the Decoder State (R28). -/
structure Observation where
  /-- `position`. -/
  position : Config.PosWord
  /-- `escape_value`. -/
  escapeValue : Option Byte
  /-- `partial_run_length`. -/
  partialRunLength : Option (BitVec 7)
  /-- `bytes_written`. -/
  bytesWritten : Config.BwWord
  deriving DecidableEq, Repr

/-- The four fields as they are. -/
def decoderFields (s : State) : Observation :=
  { position := s.position, escapeValue := s.escapeValue, partialRunLength := s.partialRunLength,
    bytesWritten := s.bytesWritten }

/-- Free values on the observation port (U3; log 13). -/
def busyFields (draw : Nat) : Observation :=
  { position := Config.busyPosition draw, escapeValue := Config.busyEscapeValue draw,
    partialRunLength := Config.busyPartialRunLength draw, bytesWritten := Config.busyBytesWritten draw }

/-- Read the observation port (R28): free values while `busy = 1` (U3). -/
def hostObserve (s : State) : Host.Outcome (Observation × State) Fault Refusal :=
  if s.command.isSome then .refused .requestPending
  else if s.busy then .next (busyFields s.draws, { s with draws := s.draws + 1 })
  else .next (decoderFields s, s)

/-- Read a Frame Buffer byte (R29, R44, R118): a free value while `busy = 1` (U2; log 13). -/
def hostReadBuffer (j : Nat) (s : State) : Host.Outcome (Byte × State) Fault Refusal :=
  if Config.frameSize ≤ j then .fault (.bufferIndexAbsent j)
  else if s.command.isSome then .refused .requestPending
  else if s.busy then .next (Config.busyBufferByte s.draws, { s with draws := s.draws + 1 })
  else .next (s.frameByteSeen j, s)

/-- Write a Frame Buffer byte from outside the block, between calls only (R29, R121, U2). -/
def hostWriteBuffer (j : Nat) (v : Byte) (s : State) : Host.Outcome State Fault Refusal :=
  if Config.frameSize ≤ j then .fault (.bufferIndexAbsent j)
  else if s.busy then .refused .bufferWriteWhileBusy
  else if s.command.isSome then .refused .requestPending
  else .next { s with frameBuffer := Memory.write s.frameBuffer j v }

end Sys2Proof.Machine
end

