-- ==== Sys2Proof/Machine/Pump.lean ====
section
/-! DEFINITION. One cycle of the Frame Pump, the host's firmware (60_exceptions.md R97, R104 to R108). It is outside the
block (00_scope.md R4) and has no state in it; the time that has passed and the render's outcome are its inputs. -/

namespace Sys2Proof.Machine

/-- What the pump does to its collaborators (R109, R110). -/
inductive PumpAction where
  /-- Hand the Frame Buffer to the Display's render operation. -/
  | render (frame : List Byte)
  /-- Block for this many microseconds. -/
  | sleep (microseconds : Nat)
  deriving DecidableEq, Repr

/-- `interval = 1_000_000 / F` microseconds (R105) where the quotient is exact; elsewhere the spec does not state it and it
is a free value (D20; log 19). -/
def pumpInterval (frameRate : Nat) : Nat :=
  if frameRate ≠ 0 ∧ 1000000 % frameRate = 0 then 1000000 / frameRate else Config.openInterval frameRate

/-- The 1024 bytes the Display is handed (R110). -/
def frameSeen (s : State) : List Byte := (List.range Config.frameSize).map s.frameByteSeen

/-- The sleep at the end of a rendered cycle: the rest of the interval, none if it has passed (R106). -/
def pumpSleep (frameRate elapsed : Nat) : List PumpAction :=
  if elapsed < pumpInterval frameRate then [.sleep (pumpInterval frameRate - elapsed)] else []

/-- What the pump does with a completed call (R106, R107). The render's outcome is ignored (R97). -/
def pumpActions (frameRate elapsed : Nat) (_renderSucceeded : Bool) (s : State) : List PumpAction :=
  if s.frameComplete then .render (frameSeen s) :: pumpSleep frameRate elapsed else []

/-- One cycle: issue `DECODE_FRAME`, wait for its completion, and act on its result (R104, R106, R107). `elapsed` is the time
since the cycle's start, decode and render included. -/
def pumpCycle (frameRate elapsed : Nat) (renderSucceeded : Bool) (s : State) :
    Host.Outcome (State × List PumpAction) Fault Refusal :=
  match hostIssue .decodeFrame s with
  | .fault r => .fault r
  | .refused r => .refused r
  | .next s1 =>
    match execDecodeFrame (takeRequest s1) with
    | .fault r => .fault r
    | .refused r => .refused r
    | .next t => .next (t, pumpActions frameRate elapsed renderSucceeded t)

end Sys2Proof.Machine
end

