-- ==== Sys2Proof/Safety.lean ====
section
/-! DEFINITION. What counts as a safe state, and the words the statements about effects and frames are made of. -/

namespace Sys2Proof.Machine

/-- The invariant of every state that steps and host moves reach, whatever `STREAM_LEN` is between calls
(10_state.md R19, R21; 40_emit_and_guards.md R64; 42_decode_frame.md R87). -/
structure State.Inv (s : State) : Prop where
  /-- The Frame Buffer is in canonical form. -/
  bufferWf : Memory.wf s.frameBuffer
  /-- It lists no index at or past `FRAME_SIZE` (R23, R64). -/
  bufferBelow : Memory.below s.frameBuffer 1024
  /-- The stream is in canonical form. -/
  streamWf : Memory.wf s.stream
  /-- `bytes_written <= FRAME_SIZE` always (R21 (c)). -/
  cursorLe : s.bytesWritten.toNat ≤ 1024
  /-- `bytes_written < FRAME_SIZE` whenever the block is idle (R19, R21 (c)). -/
  idleCursor : s.call = none → s.bytesWritten.toNat < 1024
  /-- `position <= L` during a call (R21 (b)). -/
  callPosition : ∀ L, s.call = some L → s.position.toNat ≤ L.toNat
  /-- A full buffer is found in Ground only, during a call (R87 (c)). -/
  fullGround : s.bytesWritten.toNat = 1024 → s.phase = .ground
  /-- After a call that returned true the phase is Ground and `bytes_written` is 0 (R21 (d), R83). -/
  trueGround : s.call = none → s.frameComplete = true → s.phase = .ground ∧ s.bytesWritten = 0

/-- What holds besides when `STREAM_LEN` has been the same at every call since the last reset (R21 (b), (e), R87 (a)). -/
structure State.Steady (s : State) : Prop where
  /-- The invariant. -/
  inv : s.Inv
  /-- The call in progress has the L that `STREAM_LEN` shows. -/
  callLen : ∀ L, s.call = some L → L = s.streamLen
  /-- `0 <= position <= L`. -/
  positionLe : s.position.toNat ≤ s.streamLen.toNat
  /-- An idle block has no partial frame, unless the stream is exhausted and the next call resets. -/
  idleStart : s.call = none → s.bytesWritten = 0 ∨ s.position = s.streamLen

/-- `t` is `s` with `n` copies of `v` emitted (R62): the cursor and every byte of the Frame Buffer. -/
def Emitted (n : Nat) (v : Byte) (s t : State) : Prop :=
  t.bytesWritten.toNat = s.bytesWritten.toNat + min n (1024 - s.bytesWritten.toNat) ∧
  ∀ a, t.frameByte a =
    if s.bytesWritten.toNat ≤ a ∧
        a < s.bytesWritten.toNat + min n (1024 - s.bytesWritten.toNat)
    then some v else s.frameByte a

/-- Everything but `position`, the phase, `bytes_written` and the Frame Buffer is as before: the frame of every byte step and
every sequence. -/
def SameElsewhere (s t : State) : Prop :=
  t.call = s.call ∧ t.frameComplete = s.frameComplete ∧ t.streamLen = s.streamLen ∧ t.command = s.command ∧
  t.resetInput = s.resetInput ∧ t.stream = s.stream ∧ t.draws = s.draws ∧ t.grain = s.grain

/-- The Frame Buffer and its cursor are as before: the frame of the byte steps that emit nothing. -/
def NothingEmitted (s t : State) : Prop :=
  t.bytesWritten = s.bytesWritten ∧ ∀ a, t.frameByte a = s.frameByte a

/-- Two states with the same block and ports, whatever their Frame Buffers hold. -/
def SameButBuffer (s t : State) : Prop :=
  SameElsewhere s t ∧ t.position = s.position ∧ t.phase = s.phase ∧ t.bytesWritten = s.bytesWritten

/-- `n` calls of `DECODE_FRAME`, one after another. -/
def runCalls : Nat → State → Host.Outcome State Fault Refusal
  | 0, s => .next s
  | n + 1, s => andThen (exec .decodeFrame s) (runCalls n)

/-- The bytes a sequence stands for (the last column of 30_encoding.md R50), before any clipping. -/
def pixelsOf : Instr → List Byte
  | .lit v => [v]
  | .escLit55 => [0x55#8]
  | .runs55 n => List.replicate n.toNat 0x00#8
  | .runl55 l h => List.replicate (l.toNat + 128 * h.toNat) 0x00#8
  | .escLitAA => [0xAA#8]
  | .runsAA n => List.replicate n.toNat 0xFF#8
  | .runlAA l h => List.replicate (l.toNat + 128 * h.toNat) 0xFF#8
  | .gLit _ | .gEsc55 | .gEscAA | .eLitm | .eRuns _ | .eRunlo _ | .cRunhi _ => []
  | .decodeFrame | .reset => []

/-- The stream bytes of a list of sequences. -/
def streamOf (is : List Instr) : List Byte := is.flatMap encode

/-- The bytes a list of sequences stands for. -/
def pixels (is : List Instr) : List Byte := is.flatMap pixelsOf

end Sys2Proof.Machine
end

