-- ==== Sys2Proof/Certificates/Slice0/Obligations.lean ====
section
/-! DEFINITION. The statements for the provers. -/

open Sys2Proof
open Sys2Proof.Machine

/-! ## Encoding -/

/-- 30_encoding.md R51, R52, R55: what a byte is in each phase. -/
def Obligations.ByteClassification : Prop :=
  ∀ c : Byte,
    (c = 0x55#8 → decodeByte .ground c = .gEsc55) ∧
    (c = 0xAA#8 → decodeByte .ground c = .gEscAA) ∧
    (c ≠ 0x55#8 → c ≠ 0xAA#8 → decodeByte .ground c = .gLit c) ∧
    (∀ m, c = 0x00#8 → decodeByte (.escapeActive m) c = .eLitm) ∧
    (∀ m, 1 ≤ c.toNat → c.toNat ≤ 127 →
      ∃ n, decodeByte (.escapeActive m) c = .eRuns n ∧ n.toNat = c.toNat) ∧
    (∀ m, 128 ≤ c.toNat →
      ∃ l, decodeByte (.escapeActive m) c = .eRunlo l ∧ l.toNat = c.toNat - 128) ∧
    (∀ m p, decodeByte (.runLengthContinuation m p) c = .cRunhi c)

/-- 30_encoding.md R57: in every phase every byte is a well-formed micro-step and no bit of it is dropped. -/
def Obligations.EveryByteHasOneMeaning : Prop :=
  ∀ (ph : Phase) (c : Byte),
    (decodeByte ph c).wf = true ∧ (decodeByte ph c).level = .microStep ∧ encode (decodeByte ph c) = [c]

/-- Decode of encode is the instruction, for every well-formed micro-step in a phase of its row. -/
def Obligations.MicroStepRoundTrip : Prop :=
  ∀ i : Instr, i.wf = true → i.level = .microStep →
    ∃ c, encode i = [c] ∧ ∃ ph, decodeByte ph c = i ∧ ∀ ph', ph'.name = ph.name → decodeByte ph' c = i

/-- Decode of encode is the instruction, for every well-formed sequence, whatever bytes follow. -/
def Obligations.SequenceRoundTrip : Prop :=
  ∀ (i : Instr) (rest : List Byte), i.wf = true → i.level = .sequence →
    decodeSequence (encode i ++ rest) = .ok i rest

/-- The other direction: what the decoder reads is a well-formed sequence whose bytes are the bytes read. -/
def Obligations.DecodedSequenceEncodesBack : Prop :=
  ∀ (bs : List Byte) (i : Instr) (rest : List Byte), decodeSequence bs = .ok i rest →
    i.wf = true ∧ i.level = .sequence ∧ encode i ++ rest = bs

/-- 30_encoding.md R56: the length of a sequence, told byte by byte. -/
def Obligations.SequenceLengthByteByByte : Prop :=
  ∀ (b0 b1 b2 : Byte) (rest : List Byte),
    (b0 ≠ 0x55#8 → b0 ≠ 0xAA#8 → ∃ i, decodeSequence (b0 :: b1 :: b2 :: rest) = .ok i (b1 :: b2 :: rest)) ∧
    (b0 = 0x55#8 ∨ b0 = 0xAA#8 →
      (b1.toNat < 128 → ∃ i, decodeSequence (b0 :: b1 :: b2 :: rest) = .ok i (b2 :: rest)) ∧
      (128 ≤ b1.toNat → ∃ i, decodeSequence (b0 :: b1 :: b2 :: rest) = .ok i rest))

/-- 30_encoding.md section 7 and opcode_table.json: the decoder picks the row the table selects, by pattern and priority. -/
def Obligations.DecoderFollowsOpcodeTable : Prop :=
  (∀ (ph : Phase) (c : Byte),
    (selectRow microStepRows ph.name [c]).map OpcodeRow.index = some (decodeByte ph c).rowIndex) ∧
  (∀ (bs : List Byte) (i : Instr) (rest : List Byte), decodeSequence bs = .ok i rest →
    (selectRow sequenceRows .ground bs).map OpcodeRow.index = some i.rowIndex)

/-- Words written out from the encodings of 30_encoding.md R50, in the table's numbering. That an 8-bit word is read in phase
Ground is the model's choice (log 14). -/
def Obligations.TableWordsDecode : Prop :=
  decodeTableWord 16 0x5500 = some .escLit55 ∧
  decodeTableWord 16 0xAA05 = some (.runsAA 5) ∧
  decodeTableWord 24 0x558102 = some (.runl55 1 2) ∧
  decodeTableWord 8 0xAA = some .gEscAA ∧
  decodeTableWord 8 0x12 = some (.gLit 0x12)

/-! ## Operands and emission -/

/-- 40_emit_and_guards.md R61. -/
def Obligations.RunValueOfEachMarker : Prop :=
  runValue .m55 = 0x00#8 ∧ runValue .mAA = 0xFF#8 ∧ ∀ m, runValue m ≠ m.byte

/-- 30_encoding.md R54: the long run length is assembled from both bytes, no mask on the second. -/
def Obligations.LongRunLengthAssembly : Prop :=
  ∀ c1 c2 : Byte, highBit c1 = true →
    (longLength (low7 c1) c2).toNat = (c1.toNat - 128) + 128 * c2.toNat ∧
    (longLength (low7 c1) c2).toNat ≤ 32767 ∧
    (8 ≤ c2.toNat → ∀ (v : Byte) (s : State), emit (longLength (low7 c1) c2).toNat v s = emit 1024 v s)

/-- 40_emit_and_guards.md R62, R63: `Emit` writes the clipped run at the cursor, advances the cursor by it, and changes
nothing else; what exceeds the capacity leaves no trace. -/
def Obligations.EmitWritesClippedRun : Prop :=
  ∀ (n : Nat) (v : Byte) (s : State), Memory.wf s.frameBuffer →
    Emitted n v s (emit n v s) ∧ SameElsewhere s (emit n v s) ∧
    (emit n v s).position = s.position ∧ (emit n v s).phase = s.phase ∧
    emit 0 v s = s ∧
    (∀ n', 1024 - s.bytesWritten.toNat ≤ n → 1024 - s.bytesWritten.toNat ≤ n' → emit n v s = emit n' v s)

/-- 40_emit_and_guards.md R64: no emission, of any length, writes at or past `FRAME_SIZE`. -/
def Obligations.EmitStaysInsideFrameBuffer : Prop :=
  ∀ (n : Nat) (v : Byte) (s : State), Memory.below s.frameBuffer 1024 → s.bytesWritten.toNat ≤ 1024 →
    Memory.below (emit n v s).frameBuffer 1024 ∧ (emit n v s).bytesWritten.toNat ≤ 1024

/-! ## Micro-steps -/

/-- 41_stream_bytes.md R68, `G.LIT`: completion, result and frame. -/
def Obligations.LiteralByteStep : Prop :=
  ∀ (v : Byte) (s : State), Memory.wf s.frameBuffer → s.phase = .ground →
    ∃ t, exec (.gLit v) s = .next t ∧ t.position = s.position + 1 ∧ t.phase = .ground ∧
      Emitted 1 v s t ∧ SameElsewhere s t

/-- 41_stream_bytes.md R69, `G.ESC` for both markers: completion, result and frame. -/
def Obligations.EscapeMarkerStep : Prop :=
  ∀ s : State, s.phase = .ground →
    (∃ t, exec .gEsc55 s = .next t ∧ t.position = s.position + 1 ∧ t.phase = .escapeActive .m55 ∧
      t.escapeValue = some 0x55#8 ∧ t.partialRunLength = none ∧ NothingEmitted s t ∧ SameElsewhere s t) ∧
    (∃ t, exec .gEscAA s = .next t ∧ t.position = s.position + 1 ∧ t.phase = .escapeActive .mAA ∧
      t.escapeValue = some 0xAA#8 ∧ t.partialRunLength = none ∧ NothingEmitted s t ∧ SameElsewhere s t)

/-- 41_stream_bytes.md R70, `E.LITM`: the marker itself is emitted. -/
def Obligations.EscapeLiteralStep : Prop :=
  ∀ (m : Marker) (s : State), Memory.wf s.frameBuffer → s.phase = .escapeActive m →
    ∃ t, exec .eLitm s = .next t ∧ t.position = s.position + 1 ∧ t.phase = .ground ∧
      Emitted 1 m.byte s t ∧ SameElsewhere s t

/-- 41_stream_bytes.md R71, `E.RUNS`: a clipped run of the run value. -/
def Obligations.ShortRunStep : Prop :=
  ∀ (m : Marker) (n : BitVec 7) (s : State), Memory.wf s.frameBuffer → s.phase = .escapeActive m →
    ∃ t, exec (.eRuns n) s = .next t ∧ t.position = s.position + 1 ∧ t.phase = .ground ∧
      Emitted n.toNat (runValue m) s t ∧ SameElsewhere s t

/-- 41_stream_bytes.md R72, `E.RUNLO`: the low seven bits are kept. -/
def Obligations.LongRunLowStep : Prop :=
  ∀ (m : Marker) (l : BitVec 7) (s : State), s.phase = .escapeActive m →
    ∃ t, exec (.eRunlo l) s = .next t ∧ t.position = s.position + 1 ∧ t.phase = .runLengthContinuation m l ∧
      t.escapeValue = s.escapeValue ∧ t.partialRunLength = some l ∧ NothingEmitted s t ∧ SameElsewhere s t

/-- 41_stream_bytes.md R73, `C.RUNHI`: a clipped run of the combined length, no mask on the byte. -/
def Obligations.LongRunHighStep : Prop :=
  ∀ (m : Marker) (p : BitVec 7) (h : Byte) (s : State), Memory.wf s.frameBuffer →
    s.phase = .runLengthContinuation m p →
    ∃ t, exec (.cRunhi h) s = .next t ∧ t.position = s.position + 1 ∧ t.phase = .ground ∧
      t.escapeValue = none ∧ t.partialRunLength = none ∧
      Emitted (p.toNat + 128 * h.toNat) (runValue m) s t ∧ SameElsewhere s t

/-- The model's choice (log 15): a byte step or a sequence given to `exec` outside the phase of its row is refused. -/
def Obligations.RowsOutsideTheirPhaseAreRefused : Prop :=
  ∀ s : State,
    (s.phase ≠ .ground → ∀ i : Instr, i.level = .sequence → exec i s = .refused .wrongPhase) ∧
    (s.phase ≠ .ground → (∀ v, exec (.gLit v) s = .refused .wrongPhase) ∧
      exec .gEsc55 s = .refused .wrongPhase ∧ exec .gEscAA s = .refused .wrongPhase) ∧
    (s.phase.name ≠ .escapeActive → exec .eLitm s = .refused .wrongPhase ∧
      (∀ n, exec (.eRuns n) s = .refused .wrongPhase) ∧ ∀ l, exec (.eRunlo l) s = .refused .wrongPhase) ∧
    (s.phase.name ≠ .runLengthContinuation → ∀ h, exec (.cRunhi h) s = .refused .wrongPhase)

/-! ## Sequences -/

/-- 41_stream_bytes.md R74, `LIT v`. -/
def Obligations.LiteralSequence : Prop :=
  ∀ (v : Byte) (s : State), Memory.wf s.frameBuffer → s.phase = .ground →
    ∃ t, exec (.lit v) s = .next t ∧ t.position = s.position + 1 ∧ t.phase = .ground ∧
      Emitted 1 v s t ∧ SameElsewhere s t

/-- 41_stream_bytes.md R75, `ESCLIT m` for both markers. -/
def Obligations.EscapeLiteralSequence : Prop :=
  ∀ s : State, Memory.wf s.frameBuffer → s.phase = .ground →
    (∃ t, exec .escLit55 s = .next t ∧ t.position = s.position + 2 ∧ t.phase = .ground ∧
      Emitted 1 0x55#8 s t ∧ SameElsewhere s t) ∧
    (∃ t, exec .escLitAA s = .next t ∧ t.position = s.position + 2 ∧ t.phase = .ground ∧
      Emitted 1 0xAA#8 s t ∧ SameElsewhere s t)

/-- 41_stream_bytes.md R76, `RUNS m, n` for both markers. -/
def Obligations.ShortRunSequence : Prop :=
  ∀ (n : BitVec 7) (s : State), Memory.wf s.frameBuffer → s.phase = .ground →
    (∃ t, exec (.runs55 n) s = .next t ∧ t.position = s.position + 2 ∧ t.phase = .ground ∧
      Emitted n.toNat 0x00#8 s t ∧ SameElsewhere s t) ∧
    (∃ t, exec (.runsAA n) s = .next t ∧ t.position = s.position + 2 ∧ t.phase = .ground ∧
      Emitted n.toNat 0xFF#8 s t ∧ SameElsewhere s t)

/-- 41_stream_bytes.md R77, `RUNL m, n` for both markers. -/
def Obligations.LongRunSequence : Prop :=
  ∀ (l : BitVec 7) (h : Byte) (s : State), Memory.wf s.frameBuffer → s.phase = .ground →
    (∃ t, exec (.runl55 l h) s = .next t ∧ t.position = s.position + 3 ∧ t.phase = .ground ∧
      Emitted (l.toNat + 128 * h.toNat) 0x00#8 s t ∧ SameElsewhere s t) ∧
    (∃ t, exec (.runlAA l h) s = .next t ∧ t.position = s.position + 3 ∧ t.phase = .ground ∧
      Emitted (l.toNat + 128 * h.toNat) 0xFF#8 s t ∧ SameElsewhere s t)

/-- 41_stream_bytes.md R74 to R77: from phase Ground every sequence is the composition of its micro-steps. Outside Ground, where
the rules say nothing, both sides are refused, which is the model's choice (log 15), so that the equations hold in every
state. -/
def Obligations.SequencesAreTheirMicroSteps : Prop :=
  ∀ s : State,
    (∀ v, exec (.lit v) s = exec (.gLit v) s) ∧
    exec .escLit55 s = andThen (exec .gEsc55 s) (exec .eLitm) ∧
    exec .escLitAA s = andThen (exec .gEscAA s) (exec .eLitm) ∧
    (∀ n, exec (.runs55 n) s = andThen (exec .gEsc55 s) (exec (.eRuns n))) ∧
    (∀ n, exec (.runsAA n) s = andThen (exec .gEscAA s) (exec (.eRuns n))) ∧
    (∀ l h, exec (.runl55 l h) s = andThen (andThen (exec .gEsc55 s) (exec (.eRunlo l))) (exec (.cRunhi h))) ∧
    (∀ l h, exec (.runlAA l h) s = andThen (andThen (exec .gEscAA s) (exec (.eRunlo l))) (exec (.cRunhi h)))

/-! ## The step -/

/-- While both guards hold a step is `exec` of the instruction at `position`, read as the level of step says. The
levels of step are the model's choice (log 1). -/
def Obligations.StepRunsDecodedInstruction : Prop :=
  ∀ (s : State) (L : Config.PosWord), s.call = some L → s.command = none → s.resetInput = false →
    s.bytesWritten.toNat < 1024 → s.position.toNat < L.toNat →
    (s.grain = .microStep ∨ s.grain = .sequence → step s = exec (fetchInstr s) s) ∧
    (s.grain = .microStep ∨ s.phase ≠ .ground →
      fetchInstr s = decodeByte s.phase (streamRead s s.position.toNat)) ∧
    (s.grain = .sequence → s.phase = .ground → ∀ i rest, decodeSequence (fetchWindow s) = .ok i rest →
      fetchInstr s = i) ∧
    (s.grain = .sequence → s.phase = .ground → ∀ why, decodeSequence (fetchWindow s) = .cut why →
      fetchInstr s = decodeByte s.phase (streamRead s s.position.toNat)) ∧
    (∀ k < 3, (fetchWindow s)[k]? =
      if s.position.toNat + k < L.toNat then some (streamRead s (s.position.toNat + k)) else none)

/-- 40_emit_and_guards.md R65: decoding the byte at `position` in the state's phase and executing it is `ByteStep`; it
never stops. -/
def Obligations.ByteStepDispatchesOnPhase : Prop :=
  ∀ s : State, exec (decodeByte s.phase (streamRead s s.position.toNat)) s = .next (byteStep s) ∧
    (byteStep s).position = s.position + 1 ∧ SameElsewhere s (byteStep s)

/-- 42_decode_frame.md R83, R84, R85: the end of a call, at the finer levels of step (the model's choice, log 1). -/
def Obligations.EndOfCallStep : Prop :=
  ∀ (s : State) (L : Config.PosWord), s.call = some L → s.command = none → s.resetInput = false →
    s.grain = .microStep ∨ s.grain = .sequence →
    (s.bytesWritten.toNat = 1024 →
      step s = .next { s with bytesWritten := 0, frameComplete := true, call := none }) ∧
    (s.bytesWritten.toNat < 1024 → L.toNat ≤ s.position.toNat →
      step s = .next { s with frameComplete := false, call := none })

/-- 42_decode_frame.md R79, R81: acceptance and the loop reset, at the finer levels of step (the model's choice, log 1). -/
def Obligations.AcceptanceStep : Prop :=
  ∀ s : State, s.call = none → s.command = some .decodeFrame → s.resetInput = false →
    s.grain = .microStep ∨ s.grain = .sequence →
    (s.position.toNat < s.streamLen.toNat →
      step s = .next { s with command := none, call := some s.streamLen }) ∧
    (s.streamLen.toNat ≤ s.position.toNat →
      step s = .next { s with
        command := none, call := some s.streamLen, position := 0, phase := .ground, bytesWritten := 0 })

/-- 60_exceptions.md R111: an idle block with nothing on its ports holds its state. -/
def Obligations.IdleBlockHoldsItsState : Prop :=
  ∀ s : State, s.call = none → s.command = none → s.resetInput = false → step s = .next s

/-- 60_exceptions.md R93: no step faults, and the one refusal is a command issued while busy (U1; its form is the model's
choice, log 10). -/
def Obligations.NoStepStops : Prop :=
  ∀ s : State, (∀ r, step s ≠ .fault r) ∧
    (∀ r, step s = .refused r → r = .commandWhileBusy ∧ s.busy = true ∧ s.command.isSome = true) ∧
    (s.busy = true → s.command.isSome = true → step s = .refused .commandWhileBusy)

/-- 20_memory.md R35, R46; 10_state.md R26: no step writes the stream or `STREAM_LEN`. -/
def Obligations.StreamIsNeverWritten : Prop :=
  ∀ s t : State, step s = .next t → t.stream = s.stream ∧ t.streamLen = s.streamLen

/-- 10_state.md R16: at the level of micro-steps `position` stays, advances by exactly 1 in a call, or becomes 0 at a
loop reset, a `RESET` or a hardware reset. -/
def Obligations.PositionAdvancesByOneOrResets : Prop :=
  ∀ s t : State, s.grain = .microStep → step s = .next t →
    t.position = s.position ∨
    (t.position.toNat = s.position.toNat + 1 ∧ ∃ L, s.call = some L ∧ s.position.toNat < L.toNat) ∨
    (t.position = 0 ∧ (s.resetInput = true ∨ s.command = some .reset ∨
      (s.command = some .decodeFrame ∧ s.streamLen.toNat ≤ s.position.toNat)))

/-- 10_state.md R25: `frame_complete` changes only where a call completes, at `RESET` and at reset. -/
def Obligations.StatusBitChangesOnlyAtCompletion : Prop :=
  ∀ s t : State, step s = .next t → t.frameComplete ≠ s.frameComplete →
    t.busy = false ∧
    (s.busy = true ∨ s.resetInput = true ∨ s.command = some .reset ∨
      (s.command = some .decodeFrame ∧ s.grain = .hostCommand))

/-! ## DECODE_FRAME and RESET -/

/-- 42_decode_frame.md R78, R83, R84: a `DECODE_FRAME` accepted while idle completes, with one of two ends, and its frame. -/
def Obligations.DecodeFrameCompletes : Prop :=
  ∀ s : State, s.Inv → s.call = none →
    ∃ t, exec .decodeFrame s = .next t ∧ t.call = none ∧
      (t.frameComplete = true →
        t.bytesWritten = 0 ∧ t.phase = .ground ∧ t.position.toNat ≤ s.streamLen.toNat) ∧
      (t.frameComplete = false → t.position = s.streamLen ∧ t.bytesWritten.toNat < 1024) ∧
      t.streamLen = s.streamLen ∧ t.command = s.command ∧ t.resetInput = s.resetInput ∧ t.stream = s.stream ∧
      t.draws = s.draws ∧ t.grain = s.grain

/-- 42_decode_frame.md R84, R87 (b); 20_memory.md R48: which bytes of the Frame Buffer a call has written. -/
def Obligations.DecodeFrameWritesExactlyItsFrame : Prop :=
  ∀ s t : State, s.Steady → s.call = none → exec .decodeFrame s = .next t →
    (t.frameComplete = true → (∀ a < 1024, (t.frameByte a).isSome = true) ∧ ∀ a, 1024 ≤ a → t.frameByte a = s.frameByte a) ∧
    (t.frameComplete = false →
      (∀ a < t.bytesWritten.toNat, (t.frameByte a).isSome = true) ∧
      ∀ a, t.bytesWritten.toNat ≤ a → t.frameByte a = s.frameByte a)

/-- 42_decode_frame.md R80, R81: a call that finds the stream exhausted is the call from the full reset. -/
def Obligations.LoopResetRestartsAtZero : Prop :=
  ∀ s : State, s.streamLen.toNat ≤ s.position.toNat →
    exec .decodeFrame s = exec .decodeFrame (fullReset s) ∧
    (fullReset s).position = 0 ∧ (fullReset s).escapeValue = none ∧ (fullReset s).partialRunLength = none ∧
    (fullReset s).bytesWritten = 0 ∧ (fullReset s).frameBuffer = s.frameBuffer ∧ SameElsewhere s (fullReset s)

/-- 42_decode_frame.md R88: with `L = 0` a call does nothing but the reset and returns false. -/
def Obligations.EmptyStreamReturnsFalse : Prop :=
  ∀ s : State, s.call = none → s.streamLen = 0 →
    exec .decodeFrame s =
      .next { s with position := 0, phase := .ground, bytesWritten := 0, frameComplete := false }

/-- 42_decode_frame.md R92: `RESET`. -/
def Obligations.ResetCommandResult : Prop :=
  ∀ s : State, s.call = none →
    exec .reset s =
      .next { s with position := 0, phase := .ground, bytesWritten := 0, frameComplete := false }

/-- 42_decode_frame.md R79, with the treatment of 93_implementation_defined.md U1: a command given while `busy = 1` is refused
(its form is the model's choice, log 10). -/
def Obligations.CommandWhileBusyIsRefused : Prop :=
  ∀ (s : State) (L : Config.PosWord), s.call = some L →
    exec .decodeFrame s = .refused .commandWhileBusy ∧ exec .reset s = .refused .commandWhileBusy ∧
    (∀ c, hostIssue c s = .refused .commandWhileBusy)

/-- 40_emit_and_guards.md R66, 42_decode_frame.md R86: whatever the level of step, an issued `DECODE_FRAME` runs to the state
that the whole call gives, within `L + 2` steps, and the block is busy at every step between. The levels are the model's choice (log 1). -/
def Obligations.EveryLevelOfStepAgrees : Prop :=
  ∀ s : State, s.call = none → s.command = some .decodeFrame → s.resetInput = false →
    ∃ n ≤ s.streamLen.toNat + 2,
      Host.Core.run Sys2Proof.core n s = exec .decodeFrame { s with command := none } ∧
      ∀ k, 0 < k → k < n → ∃ u, Host.Core.run Sys2Proof.core k s = .next u ∧ u.busy = true

/-- 30_encoding.md R49, R50; 40_emit_and_guards.md R63; 42_decode_frame.md R89: a call that starts where a list of
well-formed sequences is encoded up to the end of the stream fills the Frame Buffer with the bytes those sequences stand
for, up to 1024, and stops after the first sequence that completes the frame. -/
def Obligations.DecodeFrameExpandsTheStream : Prop :=
  ∀ (s : State) (is : List Instr), s.Inv → s.call = none → s.phase = .ground → s.bytesWritten = 0 →
    is ≠ [] → (∀ i ∈ is, i.wf = true ∧ i.level = .sequence) →
    s.streamLen.toNat = s.position.toNat + (streamOf is).length →
    (∀ k < (streamOf is).length, some (streamRead s (s.position.toNat + k)) = (streamOf is)[k]?) →
    ∃ t, exec .decodeFrame s = .next t ∧
      (t.frameComplete = true ↔ 1024 ≤ (pixels is).length) ∧
      (∀ a, t.frameByte a = if a < min 1024 (pixels is).length then (pixels is)[a]? else s.frameByte a) ∧
      (t.frameComplete = false → t.bytesWritten.toNat = (pixels is).length ∧ t.phase = .ground) ∧
      (t.frameComplete = true → ∃ k < is.length,
        t.position.toNat = s.position.toNat + (streamOf (is.take (k + 1))).length ∧
        (pixels (is.take k)).length < 1024 ∧ 1024 ≤ (pixels (is.take (k + 1))).length)

/-- 20_memory.md R35, 42_decode_frame.md R91: nothing a call does depends on what the Frame Buffer held, and a complete frame
is the same bytes. -/
def Obligations.CallsDoNotReadTheFrameBuffer : Prop :=
  ∀ (n : Nat) (s s' : State), s.Steady → s'.Steady → s.call = none → SameButBuffer s s' →
    ∃ t t', runCalls n s = .next t ∧ runCalls n s' = .next t' ∧ SameButBuffer t t' ∧
      (0 < n → t.frameComplete = true → ∀ a < 1024, t.frameByte a = t'.frameByte a)

/-- 42_decode_frame.md R90: after the stream has been consumed, the calls produce the frames of the first pass again, bit for
bit, as from a freshly reset Decoder State. -/
def Obligations.PlaybackLoops : Prop :=
  ∀ (n : Nat) (s s0 : State), s.Steady → s0.Steady → s.call = none → SameElsewhere s s0 →
    s.position = s.streamLen → s0.position = 0 → s0.phase = .ground → s0.bytesWritten = 0 → 0 < n →
    ∃ t t0, runCalls n s = .next t ∧ runCalls n s0 = .next t0 ∧ SameButBuffer t t0 ∧
      (t.frameComplete = true → ∀ a < 1024, t.frameByte a = t0.frameByte a)

/-- 42_decode_frame.md R88: a pass that completes no frame is repeated by every later call, with the same state. -/
def Obligations.NeverCompletingStreamRepeats : Prop :=
  ∀ s t : State, s.Steady → s.call = none →
    (s.position = 0 ∧ s.phase = .ground) ∨ s.position = s.streamLen →
    exec .decodeFrame s = .next t → t.frameComplete = false → exec .decodeFrame t = .next t

/-! ## Reset and invariants -/

/-- 10_state.md R31, 70_reset_and_hazards.md R113: the values the spec gives for reset. -/
def Obligations.ResetValues : Prop :=
  State.reset.position = 0 ∧ State.reset.escapeValue = none ∧ State.reset.partialRunLength = none ∧
  State.reset.bytesWritten = 0 ∧ State.reset.phase = .ground ∧ State.reset.busy = false ∧
  State.reset.frameComplete = false

/-- 70_reset_and_hazards.md R113, R114, R115: the reset input, in and outside a call. The input's form is the model's choice
(log 11); how many further writes land is a free value (U7; log 12). -/
def Obligations.HardwareResetStep : Prop :=
  ∀ s : State, s.Inv → s.resetInput = true → s.command = none →
    ∃ t, step s = .next t ∧ t.position = 0 ∧ t.phase = .ground ∧ t.bytesWritten = 0 ∧ t.busy = false ∧
      t.frameComplete = false ∧ t.stream = s.stream ∧ t.streamLen = s.streamLen ∧ t.resetInput = true ∧
      t.command = none ∧ t.grain = s.grain ∧
      (s.busy = false → t.frameBuffer = s.frameBuffer) ∧
      (s.busy = true → ∃ n, s.bytesWritten.toNat + n ≤ (loopExit s).bytesWritten.toNat ∧
        ∀ a, t.frameByte a =
          if s.bytesWritten.toNat ≤ a ∧ a < s.bytesWritten.toNat + n then (loopExit s).frameByte a
          else s.frameByte a)

/-- 10_state.md R20: the phase is the function of `escape_value` and `partial_run_length` that the rule gives; R21 (a): a partial
run length is held only with an escape value; R17: which values `escape_value` holds. -/
def Obligations.PhaseIsAFunctionOfTheFields : Prop :=
  ∀ s : State,
    (s.phase = .ground ↔ s.escapeValue = none) ∧
    (∀ m, s.phase = .escapeActive m ↔ s.escapeValue = some m.byte ∧ s.partialRunLength = none) ∧
    (∀ m p, s.phase = .runLengthContinuation m p ↔ s.escapeValue = some m.byte ∧ s.partialRunLength = some p) ∧
    phaseOfFields s.escapeValue s.partialRunLength = some s.phase ∧
    (s.partialRunLength ≠ none → s.escapeValue ≠ none) ∧
    (s.escapeValue = none ∨ s.escapeValue = some 0x55#8 ∨ s.escapeValue = some 0xAA#8)

/-- The invariant holds right after reset. -/
def Obligations.InvariantAtReset : Prop := State.reset.Inv ∧ State.reset.Steady

/-- 10_state.md R19, R21; 40_emit_and_guards.md R64; 42_decode_frame.md R87 (c): every step keeps the invariant. -/
def Obligations.StepKeepsInvariant : Prop :=
  ∀ s t : State, s.Inv → step s = .next t → t.Inv

/-- 10_state.md R21 (b), (e); 42_decode_frame.md R87 (a): with `STREAM_LEN` constant every step keeps the position within the
stream and an idle block without a partial frame, unless the stream is exhausted. -/
def Obligations.StepKeepsSteadyPlayback : Prop :=
  ∀ s t : State, s.Steady → step s = .next t → t.Steady

/-- The host's moves keep the invariant (10_state.md R28, R29). What releasing an input that is not asserted does is the model's
choice (log 11). -/
def Obligations.HostMovesKeepInvariant : Prop :=
  ∀ s t : State, s.Inv →
    (∀ c, hostIssue c s = .next t → t.Inv) ∧
    (∀ L, hostDriveStreamLen L s = .next t → t.Inv) ∧
    (∀ j v, hostWriteBuffer j v s = .next t → t.Inv) ∧
    (hostAssertReset s).Inv ∧ (hostReleaseReset s).Inv

/-! ## The host -/

/-- 10_state.md R25, R28; 20_memory.md R44: what the host reads while the block is idle. The fault
for an index that does not exist (20_memory.md R34) is the model's choice (log 16). -/
def Obligations.IdleReadsShowTheState : Prop :=
  ∀ s : State, s.call = none → s.command = none →
    hostReadBusy s = .next false ∧ hostReadFrameComplete s = .next (s.frameComplete, s) ∧
    hostObserve s = .next (decoderFields s, s) ∧
    (∀ (j : Nat) (b : Byte), j < 1024 → s.frameByte j = some b → hostReadBuffer j s = .next (b, s)) ∧
    (∀ j, 1024 ≤ j → hostReadBuffer j s = .fault (.bufferIndexAbsent j))

/-- 60_exceptions.md R97, R106, R107: one cycle of the Frame Pump. -/
def Obligations.PumpCycleRendersCompleteFrames : Prop :=
  ∀ (s : State) (elapsed : Nat) (ok : Bool), s.Inv → s.call = none → s.command = none → s.resetInput = false →
    ∃ t, exec .decodeFrame s = .next t ∧
      (t.frameComplete = false → pumpCycle 20 elapsed ok s = .next (t, [])) ∧
      (t.frameComplete = true → elapsed < 50000 →
        pumpCycle 20 elapsed ok s = .next (t, [.render (frameSeen t), .sleep (50000 - elapsed)])) ∧
      (t.frameComplete = true → 50000 ≤ elapsed →
        pumpCycle 20 elapsed ok s = .next (t, [.render (frameSeen t)]))
end

