-- ==== Sys2Proof/Laws/Decode.lean ====
section
/-! SUPPORT. The bit fields of a byte, the marker test, and the operands. -/

namespace Sys2Proof

@[simp] theorem markerOf_byte (m : Marker) : markerOf m.byte = some m := by cases m <;> decide

theorem byte_of_markerOf {c : Byte} {m : Marker} (h : markerOf c = some m) : c = m.byte := by
  simp only [markerOf] at h
  split at h
  · cases h; assumption
  · split at h
    · cases h; assumption
    · cases h

theorem markerOf_eq_none_iff (c : Byte) : markerOf c = none ↔ c ≠ Config.mark0 ∧ c ≠ Config.mark1 := by
  unfold markerOf
  split
  · simp [*]
  · split <;> simp [*]

@[simp] theorem low7_shortByte : ∀ n : BitVec 7, low7 (shortByte n) = n := by decide

@[simp] theorem low7_longByte : ∀ l : BitVec 7, low7 (longByte l) = l := by decide

@[simp] theorem highBit_shortByte : ∀ n : BitVec 7, highBit (shortByte n) = false := by decide

@[simp] theorem highBit_longByte : ∀ l : BitVec 7, highBit (longByte l) = true := by decide

@[simp] theorem shortByte_eq_zero_iff : ∀ n : BitVec 7, shortByte n = 0x00#8 ↔ n = 0#7 := by decide

@[simp] theorem longByte_ne_zero : ∀ l : BitVec 7, longByte l ≠ 0x00#8 := by decide

theorem shortByte_low7 : ∀ c : Byte, highBit c = false → shortByte (low7 c) = c := by decide

theorem longByte_low7 : ∀ c : Byte, highBit c = true → longByte (low7 c) = c := by decide

theorem highBit_eq_false_iff : ∀ c : Byte, highBit c = false ↔ c.toNat < 128 := by decide

theorem low7_toNat_of_low : ∀ c : Byte, highBit c = false → (low7 c).toNat = c.toNat := by decide

theorem low7_toNat_of_high : ∀ c : Byte, highBit c = true → (low7 c).toNat = c.toNat - 128 := by decide

theorem low7_eq_zero_of_low : ∀ c : Byte, highBit c = false → low7 c = 0#7 → c = 0x00#8 := by decide

/-- What the sequence decoder can answer with success: one of the four forms. -/
theorem decodeSequence_cases {bs : List Byte} {i : Instr} {rest : List Byte} (h : decodeSequence bs = .ok i rest) :
    (∃ b0, bs = b0 :: rest ∧ markerOf b0 = none ∧ i = .lit b0) ∨
    ∃ m, (bs = m.byte :: 0x00#8 :: rest ∧ i = escLitOf m) ∨
      (∃ b1, bs = m.byte :: b1 :: rest ∧ b1 ≠ 0x00#8 ∧ highBit b1 = false ∧ i = runsOf m (low7 b1)) ∨
      (∃ b1 b2, bs = m.byte :: b1 :: b2 :: rest ∧ b1 ≠ 0x00#8 ∧ highBit b1 = true ∧
        i = runlOf m (low7 b1) b2) := by
  match bs, h with
  | b0 :: r0, h =>
    simp only [decodeSequence] at h
    cases hm : markerOf b0 with
    | none =>
      simp only [hm] at h
      cases h
      exact .inl ⟨b0, rfl, hm, rfl⟩
    | some m =>
      simp only [hm] at h
      refine .inr ⟨m, ?_⟩
      rw [byte_of_markerOf hm]
      match r0, h with
      | b1 :: r1, h =>
        simp only at h
        split at h
        · cases h; exact .inl ⟨by simp [*], rfl⟩
        · split at h
          · cases h; exact .inr (.inl ⟨b1, rfl, ‹_›, ‹_›, rfl⟩)
          · match r1, h with
            | b2 :: r2, h =>
              cases h
              exact .inr (.inr ⟨b1, b2, rfl, ‹_›, by simpa using ‹¬highBit b1 = false›, rfl⟩)

namespace Machine

/-- The two parts of a long run length have no bit in common, so `|` is `+` (30_encoding.md R54). -/
theorem longLength_toNat (p : BitVec 7) (h : Byte) : (longLength p h).toNat = p.toNat + 128 * h.toNat := by
  have hp : p.toNat < 128 := p.isLt
  have hh : h.toNat < 256 := h.isLt
  have e1 : p.toNat % 2 ^ 15 = p.toNat := Nat.mod_eq_of_lt (by omega)
  have e2 : h.toNat % 2 ^ 15 = h.toNat := Nat.mod_eq_of_lt (by omega)
  have e3 : h.toNat <<< 7 % 2 ^ 15 = 2 ^ 7 * h.toNat := by
    rw [Nat.shiftLeft_eq, Nat.mul_comm]; exact Nat.mod_eq_of_lt (by omega)
  have e4 : 2 ^ 7 * h.toNat ||| p.toNat = 2 ^ 7 * h.toNat + p.toNat := (Nat.two_pow_add_eq_or_of_lt (by omega) _).symm
  simp only [longLength, BitVec.toNat_or, BitVec.toNat_setWidth, BitVec.toNat_shiftLeft, e1, e2, e3]
  rw [Nat.or_comm, e4]; omega

end Machine

end Sys2Proof
end

