-- ==== Sys2Proof/Laws/Memory.lean ====
section
/-! SUPPORT. The memory operations: what a read gives after each, that each keeps the canonical form and its bound, and that
canonical memories with the same reads are equal. -/

namespace Sys2Proof.Machine

theorem Memory.read_write (m : Memory) (i j : Nat) (v : Byte) (hm : Memory.wf m) :
    Memory.read (Memory.write m i v) j = if i = j then some v else Memory.read m j := by
  induction m with
  | nil => simp [Memory.write, Memory.read]
  | cons c m ih =>
    obtain ⟨a, b⟩ := c
    have hm' : Memory.wf m := (List.pairwise_cons.mp hm).2
    simp only [Memory.write]
    split
    · simp [Memory.read]
    · split
      · subst i; simp only [Memory.read]
        split <;> rfl
      · simp only [Memory.read, ih hm']
        split
        · split
          · omega
          · rfl
        · rfl

theorem Memory.mem_write {m : Memory} {i : Nat} {v : Byte} {c : Host.Cell} (hc : c ∈ Memory.write m i v) :
    c = (i, v) ∨ c ∈ m := by
  induction m with
  | nil => simpa [Memory.write] using hc
  | cons d m ih =>
    obtain ⟨a, b⟩ := d
    simp only [Memory.write] at hc
    split at hc
    · simpa using hc
    · split at hc
      · rcases List.mem_cons.mp hc with h | h
        · exact .inl h
        · exact .inr (List.mem_cons_of_mem _ h)
      · rcases List.mem_cons.mp hc with h | h
        · exact .inr (h ▸ List.mem_cons_self)
        · exact (ih h).imp_right (List.mem_cons_of_mem _)

/-- A write keeps the canonical form. -/
theorem Memory.write_wf {m : Memory} (hm : Memory.wf m) (i : Nat) (v : Byte) : Memory.wf (Memory.write m i v) := by
  induction m with
  | nil => simp [Memory.write]
  | cons c m ih =>
    obtain ⟨a, b⟩ := c
    obtain ⟨hhead, htail⟩ := List.pairwise_cons.mp hm
    simp only [Memory.write]
    split
    · refine List.pairwise_cons.mpr ⟨fun d hd => ?_, hm⟩
      rcases List.mem_cons.mp hd with rfl | hd
      · assumption
      · exact Nat.lt_trans ‹i < a› (hhead d hd)
    · split
      · subst i; exact List.pairwise_cons.mpr ⟨hhead, htail⟩
      · refine List.pairwise_cons.mpr ⟨fun d hd => ?_, ih htail⟩
        rcases Memory.mem_write hd with rfl | hd
        · show a < i; omega
        · exact hhead d hd

/-- A write below a bound keeps the bound. -/
theorem Memory.write_below {m : Memory} {n : Nat} (hm : Memory.below m n) {i : Nat} (hi : i < n) (v : Byte) :
    Memory.below (Memory.write m i v) n := by
  intro c hc
  rcases Memory.mem_write hc with rfl | hc
  · exact hi
  · exact hm c hc

theorem Memory.fill_wf {m : Memory} (hm : Memory.wf m) (j k : Nat) (v : Byte) : Memory.wf (Memory.fill m j k v) := by
  induction k generalizing m j with
  | zero => exact hm
  | succ k ih => exact ih (Memory.write_wf hm j v) (j + 1)

theorem Memory.fill_below {m : Memory} {n : Nat} (hm : Memory.below m n) {j k : Nat} (hjk : j + k ≤ n) (v : Byte) :
    Memory.below (Memory.fill m j k v) n := by
  induction k generalizing m j with
  | zero => exact hm
  | succ k ih => exact ih (Memory.write_below hm (by omega) v) (by omega)

/-- What a fill does: the filled indices read as the value, every other index as before. -/
theorem Memory.read_fill {m : Memory} (hm : Memory.wf m) (j k : Nat) (v : Byte) (i : Nat) :
    Memory.read (Memory.fill m j k v) i = if j ≤ i ∧ i < j + k then some v else Memory.read m i := by
  induction k generalizing m j with
  | zero =>
    have h : ¬(j ≤ i ∧ i < j + 0) := by omega
    rw [if_neg h]; rfl
  | succ k ih =>
    show Memory.read (Memory.fill (Memory.write m j v) (j + 1) k v) i = _
    rw [ih (Memory.write_wf hm j v), Memory.read_write m j i v hm]
    by_cases h1 : j = i <;> by_cases h2 : j + 1 ≤ i ∧ i < j + 1 + k <;>
      by_cases h3 : j ≤ i ∧ i < j + (k + 1) <;> simp [h1, h2, h3] <;> omega

theorem Memory.place_wf {m : Memory} (hm : Memory.wf m) (j : Nat) (bs : List Byte) :
    Memory.wf (Memory.place m j bs) := by
  induction bs generalizing m j with
  | nil => exact hm
  | cons b bs ih => exact ih (Memory.write_wf hm j b) (j + 1)

/-- What placing bytes does: they read in order from the start index, every other index as before. -/
theorem Memory.read_place {m : Memory} (hm : Memory.wf m) (j : Nat) (bs : List Byte) (i : Nat) :
    Memory.read (Memory.place m j bs) i =
      if j ≤ i ∧ i < j + bs.length then bs[i - j]? else Memory.read m i := by
  induction bs generalizing m j with
  | nil =>
    have h : ¬(j ≤ i ∧ i < j + ([] : List Byte).length) := by simp
    rw [if_neg h]; rfl
  | cons b bs ih =>
    show Memory.read (Memory.place (Memory.write m j b) (j + 1) bs) i = _
    rw [ih (Memory.write_wf hm j b), Memory.read_write m j i b hm]
    by_cases h1 : j = i
    · subst h1; simp
    · by_cases h2 : j + 1 ≤ i ∧ i < j + 1 + bs.length
      · have h3 : j ≤ i ∧ i < j + (b :: bs).length := by simp; omega
        have h4 : i - j = (i - (j + 1)) + 1 := by omega
        rw [if_pos h2, if_pos h3, h4, List.getElem?_cons_succ]
      · have h3 : ¬(j ≤ i ∧ i < j + (b :: bs).length) := by simp; omega
        rw [if_neg h2, if_neg h3, if_neg h1]

theorem Memory.copy_wf {m : Memory} (hm : Memory.wf m) (src : Memory) (j k : Nat) :
    Memory.wf (Memory.copy m src j k) := by
  induction k generalizing m j with
  | zero => exact hm
  | succ k ih =>
    simp only [Memory.copy]
    split
    · exact ih (Memory.write_wf hm j _) (j + 1)
    · exact ih hm (j + 1)

theorem Memory.copy_below {m : Memory} {n : Nat} (hm : Memory.below m n) (src : Memory) {j k : Nat} (hjk : j + k ≤ n) :
    Memory.below (Memory.copy m src j k) n := by
  induction k generalizing m j with
  | zero => exact hm
  | succ k ih =>
    simp only [Memory.copy]
    split
    · exact ih (Memory.write_below hm (by omega) _) (by omega)
    · exact ih hm (by omega)

/-- What a copy does: in its range every index that the source lists reads as the source's byte, every other index as
before. -/
theorem Memory.read_copy {m : Memory} (hm : Memory.wf m) (src : Memory) (j k i : Nat) :
    Memory.read (Memory.copy m src j k) i =
      if j ≤ i ∧ i < j + k then (Memory.read src i).or (Memory.read m i) else Memory.read m i := by
  induction k generalizing m j with
  | zero =>
    have h : ¬(j ≤ i ∧ i < j + 0) := by omega
    rw [if_neg h]; rfl
  | succ k ih =>
    simp only [Memory.copy]
    split
    · rename_i b hb
      rw [ih (Memory.write_wf hm j b), Memory.read_write m j i b hm]
      by_cases h1 : j = i
      · subst h1; simp [hb]
      · by_cases h2 : j + 1 ≤ i ∧ i < j + 1 + k <;> by_cases h3 : j ≤ i ∧ i < j + (k + 1) <;>
          simp [h1, h2, h3] <;> omega
    · rename_i hb
      rw [ih hm]
      by_cases h1 : j = i
      · subst h1; simp [hb]
      · by_cases h2 : j + 1 ≤ i ∧ i < j + 1 + k <;> by_cases h3 : j ≤ i ∧ i < j + (k + 1) <;>
          simp [h2, h3] <;> omega

theorem Memory.read_eq_none_of_lt {m : Memory} {i : Nat} (h : ∀ c ∈ m, i < c.1) : Memory.read m i = none := by
  induction m with
  | nil => rfl
  | cons c m ih =>
    obtain ⟨a, b⟩ := c
    have ha : i < a := h (a, b) List.mem_cons_self
    have hne : ¬a = i := by omega
    simp only [Memory.read, if_neg hne]
    exact ih fun d hd => h d (List.mem_cons_of_mem _ hd)

/-- Nothing is listed at or past a bound. -/
theorem Memory.read_eq_none_of_below {m : Memory} {n i : Nat} (hm : Memory.below m n) (hi : n ≤ i) :
    Memory.read m i = none := by
  induction m with
  | nil => rfl
  | cons c m ih =>
    obtain ⟨a, b⟩ := c
    have ha : a < n := hm (a, b) List.mem_cons_self
    have hne : ¬a = i := by omega
    simp only [Memory.read, if_neg hne]
    exact ih fun d hd => hm d (List.mem_cons_of_mem _ hd)

/-- Canonical memories with the same reads are the same data. -/
theorem Memory.ext_of_read {m m' : Memory} (hm : Memory.wf m) (hm' : Memory.wf m')
    (h : ∀ i, Memory.read m i = Memory.read m' i) : m = m' := by
  induction m generalizing m' with
  | nil =>
    cases m' with
    | nil => rfl
    | cons d m' =>
      obtain ⟨a', b'⟩ := d
      have := h a'
      simp [Memory.read] at this
  | cons c m ih =>
    obtain ⟨a, b⟩ := c
    obtain ⟨hhead, htail⟩ := List.pairwise_cons.mp hm
    cases m' with
    | nil =>
      have := h a
      simp [Memory.read] at this
    | cons d m' =>
      obtain ⟨a', b'⟩ := d
      obtain ⟨hhead', htail'⟩ := List.pairwise_cons.mp hm'
      have hlt : ¬a < a' := by
        intro hlt
        have h1 := h a
        have h2 : Memory.read ((a', b') :: m') a = none := by
          refine Memory.read_eq_none_of_lt fun e he => ?_
          rcases List.mem_cons.mp he with rfl | he
          · exact hlt
          · exact Nat.lt_trans hlt (hhead' e he)
        rw [h2] at h1
        simp [Memory.read] at h1
      have hgt : ¬a' < a := by
        intro hgt
        have h1 := h a'
        have h2 : Memory.read ((a, b) :: m) a' = none := by
          refine Memory.read_eq_none_of_lt fun e he => ?_
          rcases List.mem_cons.mp he with rfl | he
          · exact hgt
          · exact Nat.lt_trans hgt (hhead e he)
        rw [h2] at h1
        simp [Memory.read] at h1
      have haa : a = a' := by omega
      subst haa
      have hb : b = b' := by simpa [Memory.read] using h a
      subst hb
      have hrest : m = m' := by
        refine ih htail htail' fun i => ?_
        by_cases hi : a = i
        · subst hi
          rw [Memory.read_eq_none_of_lt hhead, Memory.read_eq_none_of_lt hhead']
        · have := h i
          simpa [Memory.read, hi] using this
      rw [hrest]

end Sys2Proof.Machine
end

