-- ==== Sys2Proof/Laws/State.lean ====
section
/-! SUPPORT. One lemma for each field of State under each named update, so that no later proof unfolds a record update. -/

namespace Sys2Proof.Machine

@[simp] theorem advance_position (n : Nat) (s : State) : (advance n s).position = s.position + BitVec.ofNat Config.posBits n := rfl
@[simp] theorem advance_phase (n : Nat) (s : State) : (advance n s).phase = s.phase := rfl
@[simp] theorem advance_bytesWritten (n : Nat) (s : State) : (advance n s).bytesWritten = s.bytesWritten := rfl
@[simp] theorem advance_call (n : Nat) (s : State) : (advance n s).call = s.call := rfl
@[simp] theorem advance_frameComplete (n : Nat) (s : State) : (advance n s).frameComplete = s.frameComplete := rfl
@[simp] theorem advance_streamLen (n : Nat) (s : State) : (advance n s).streamLen = s.streamLen := rfl
@[simp] theorem advance_command (n : Nat) (s : State) : (advance n s).command = s.command := rfl
@[simp] theorem advance_resetInput (n : Nat) (s : State) : (advance n s).resetInput = s.resetInput := rfl
@[simp] theorem advance_stream (n : Nat) (s : State) : (advance n s).stream = s.stream := rfl
@[simp] theorem advance_frameBuffer (n : Nat) (s : State) : (advance n s).frameBuffer = s.frameBuffer := rfl
@[simp] theorem advance_draws (n : Nat) (s : State) : (advance n s).draws = s.draws := rfl
@[simp] theorem advance_grain (n : Nat) (s : State) : (advance n s).grain = s.grain := rfl

@[simp] theorem setPhase_position (ph : Phase) (s : State) : (setPhase ph s).position = s.position := rfl
@[simp] theorem setPhase_phase (ph : Phase) (s : State) : (setPhase ph s).phase = ph := rfl
@[simp] theorem setPhase_bytesWritten (ph : Phase) (s : State) : (setPhase ph s).bytesWritten = s.bytesWritten := rfl
@[simp] theorem setPhase_call (ph : Phase) (s : State) : (setPhase ph s).call = s.call := rfl
@[simp] theorem setPhase_frameComplete (ph : Phase) (s : State) : (setPhase ph s).frameComplete = s.frameComplete := rfl
@[simp] theorem setPhase_streamLen (ph : Phase) (s : State) : (setPhase ph s).streamLen = s.streamLen := rfl
@[simp] theorem setPhase_command (ph : Phase) (s : State) : (setPhase ph s).command = s.command := rfl
@[simp] theorem setPhase_resetInput (ph : Phase) (s : State) : (setPhase ph s).resetInput = s.resetInput := rfl
@[simp] theorem setPhase_stream (ph : Phase) (s : State) : (setPhase ph s).stream = s.stream := rfl
@[simp] theorem setPhase_frameBuffer (ph : Phase) (s : State) : (setPhase ph s).frameBuffer = s.frameBuffer := rfl
@[simp] theorem setPhase_draws (ph : Phase) (s : State) : (setPhase ph s).draws = s.draws := rfl
@[simp] theorem setPhase_grain (ph : Phase) (s : State) : (setPhase ph s).grain = s.grain := rfl

@[simp] theorem fullReset_position (s : State) : (fullReset s).position = 0 := rfl
@[simp] theorem fullReset_phase (s : State) : (fullReset s).phase = .ground := rfl
@[simp] theorem fullReset_bytesWritten (s : State) : (fullReset s).bytesWritten = 0 := rfl
@[simp] theorem fullReset_call (s : State) : (fullReset s).call = s.call := rfl
@[simp] theorem fullReset_frameComplete (s : State) : (fullReset s).frameComplete = s.frameComplete := rfl
@[simp] theorem fullReset_streamLen (s : State) : (fullReset s).streamLen = s.streamLen := rfl
@[simp] theorem fullReset_command (s : State) : (fullReset s).command = s.command := rfl
@[simp] theorem fullReset_resetInput (s : State) : (fullReset s).resetInput = s.resetInput := rfl
@[simp] theorem fullReset_stream (s : State) : (fullReset s).stream = s.stream := rfl
@[simp] theorem fullReset_frameBuffer (s : State) : (fullReset s).frameBuffer = s.frameBuffer := rfl
@[simp] theorem fullReset_draws (s : State) : (fullReset s).draws = s.draws := rfl
@[simp] theorem fullReset_grain (s : State) : (fullReset s).grain = s.grain := rfl

@[simp] theorem emit_position (n : Nat) (v : Byte) (s : State) : (emit n v s).position = s.position := rfl
@[simp] theorem emit_phase (n : Nat) (v : Byte) (s : State) : (emit n v s).phase = s.phase := rfl
@[simp] theorem emit_bytesWritten (n : Nat) (v : Byte) (s : State) : (emit n v s).bytesWritten = s.bytesWritten + BitVec.ofNat Config.bwBits (min n (capacity s)) := rfl
@[simp] theorem emit_call (n : Nat) (v : Byte) (s : State) : (emit n v s).call = s.call := rfl
@[simp] theorem emit_frameComplete (n : Nat) (v : Byte) (s : State) : (emit n v s).frameComplete = s.frameComplete := rfl
@[simp] theorem emit_streamLen (n : Nat) (v : Byte) (s : State) : (emit n v s).streamLen = s.streamLen := rfl
@[simp] theorem emit_command (n : Nat) (v : Byte) (s : State) : (emit n v s).command = s.command := rfl
@[simp] theorem emit_resetInput (n : Nat) (v : Byte) (s : State) : (emit n v s).resetInput = s.resetInput := rfl
@[simp] theorem emit_stream (n : Nat) (v : Byte) (s : State) : (emit n v s).stream = s.stream := rfl
@[simp] theorem emit_frameBuffer (n : Nat) (v : Byte) (s : State) : (emit n v s).frameBuffer = Memory.fill s.frameBuffer s.bytesWritten.toNat (min n (capacity s)) v := rfl
@[simp] theorem emit_draws (n : Nat) (v : Byte) (s : State) : (emit n v s).draws = s.draws := rfl
@[simp] theorem emit_grain (n : Nat) (v : Byte) (s : State) : (emit n v s).grain = s.grain := rfl

@[simp] theorem takeRequest_position (s : State) : (takeRequest s).position = s.position := rfl
@[simp] theorem takeRequest_phase (s : State) : (takeRequest s).phase = s.phase := rfl
@[simp] theorem takeRequest_bytesWritten (s : State) : (takeRequest s).bytesWritten = s.bytesWritten := rfl
@[simp] theorem takeRequest_call (s : State) : (takeRequest s).call = s.call := rfl
@[simp] theorem takeRequest_frameComplete (s : State) : (takeRequest s).frameComplete = s.frameComplete := rfl
@[simp] theorem takeRequest_streamLen (s : State) : (takeRequest s).streamLen = s.streamLen := rfl
@[simp] theorem takeRequest_command (s : State) : (takeRequest s).command = none := rfl
@[simp] theorem takeRequest_resetInput (s : State) : (takeRequest s).resetInput = s.resetInput := rfl
@[simp] theorem takeRequest_stream (s : State) : (takeRequest s).stream = s.stream := rfl
@[simp] theorem takeRequest_frameBuffer (s : State) : (takeRequest s).frameBuffer = s.frameBuffer := rfl
@[simp] theorem takeRequest_draws (s : State) : (takeRequest s).draws = s.draws := rfl
@[simp] theorem takeRequest_grain (s : State) : (takeRequest s).grain = s.grain := rfl

/-- `busy` says that a call is in progress. -/
@[simp] theorem busy_eq_isSome (s : State) : s.busy = s.call.isSome := rfl

/-- A byte of the Frame Buffer is a byte of its memory. -/
theorem frameByte_eq_read (s : State) (j : Nat) : s.frameByte j = Memory.read s.frameBuffer j := rfl

end Sys2Proof.Machine
end

