-- ==== Sys2Proof/Laws/Ops.lean ====
section
/-! SUPPORT. What `Emit` and `position`'s advance do, said once. `FRAME_SIZE` is written 1024 in every lemma. -/

namespace Sys2Proof.Machine

/-- The cursor after an emission: no wrap, whatever the length. -/
theorem emit_cursor (n : Nat) (v : Byte) (s : State) :
    (emit n v s).bytesWritten.toNat = s.bytesWritten.toNat + min n (1024 - s.bytesWritten.toNat) := by
  have h : s.bytesWritten.toNat < 2 ^ 11 := s.bytesWritten.isLt
  simp only [emit_bytesWritten, capacity, BitVec.toNat_add, BitVec.toNat_ofNat, Config.frameSize, Config.bwBits]
  have h1 : min n (1024 - s.bytesWritten.toNat) % 2 ^ 11 = min n (1024 - s.bytesWritten.toNat) :=
    Nat.mod_eq_of_lt (by omega)
  rw [h1]; exact Nat.mod_eq_of_lt (by omega)

/-- The Frame Buffer after an emission, byte by byte. -/
theorem emit_frameByte (n : Nat) (v : Byte) {s : State} (hs : Memory.wf s.frameBuffer) (a : Nat) :
    (emit n v s).frameByte a =
      if s.bytesWritten.toNat ≤ a ∧ a < s.bytesWritten.toNat + min n (1024 - s.bytesWritten.toNat)
      then some v else s.frameByte a :=
  Memory.read_fill hs _ _ v a

theorem emit_wf (n : Nat) (v : Byte) {s : State} (hs : Memory.wf s.frameBuffer) : Memory.wf (emit n v s).frameBuffer :=
  Memory.fill_wf hs _ _ v

theorem emit_below (n : Nat) (v : Byte) {s : State} (hs : Memory.below s.frameBuffer 1024)
    (hc : s.bytesWritten.toNat ≤ 1024) : Memory.below (emit n v s).frameBuffer 1024 := by
  refine Memory.fill_below hs ?_ v
  simp only [capacity, Config.frameSize]; omega

theorem emit_cursor_le (n : Nat) (v : Byte) {s : State} (hc : s.bytesWritten.toNat ≤ 1024) :
    (emit n v s).bytesWritten.toNat ≤ 1024 := by
  rw [emit_cursor]; omega

/-- An emission does not see an advance, and the other way round. -/
theorem emit_advance (n k : Nat) (v : Byte) (s : State) : emit n v (advance k s) = advance k (emit n v s) := rfl

/-- Two advances are one. -/
theorem advance_advance (j k : Nat) (s : State) : advance k (advance j s) = advance (j + k) s := by
  simp only [advance, BitVec.add_assoc, BitVec.ofNat_add]

/-- `position` after an advance that stays below `2 ^ POS_BITS`. -/
theorem advance_position_toNat {k : Nat} {s : State} (h : s.position.toNat + k < 2 ^ 32) :
    (advance k s).position.toNat = s.position.toNat + k := by
  have hk : k % 2 ^ 32 = k := Nat.mod_eq_of_lt (by omega)
  simp only [advance_position, BitVec.toNat_add, BitVec.toNat_ofNat, Config.posBits, hk]
  exact Nat.mod_eq_of_lt h

end Sys2Proof.Machine
end

