-- ==== Sys2Proof/Laws/Calls.lean ====
section
/-! SUPPORT. What a byte step, the main loop, the acceptance and the end of a call can do, each said once. -/

namespace Sys2Proof.Machine

/-- A byte step advances by one byte and either emits and returns to Ground, or emits nothing and changes the phase. -/
theorem byteStep_cases (s : State) :
    (∃ n v, byteStep s = setPhase .ground (emit n v (advance 1 s))) ∨
    (∃ ph, byteStep s = setPhase ph (advance 1 s)) := by
  unfold byteStep
  split
  · rename_i hph
    split
    · exact .inr ⟨_, rfl⟩
    · refine .inl ⟨1, streamRead s s.position.toNat, ?_⟩
      simp only [litStep, setPhase, emit, advance, hph]
  · split
    · exact .inl ⟨_, _, rfl⟩
    · split
      · exact .inl ⟨_, _, rfl⟩
      · exact .inr ⟨_, rfl⟩
  · exact .inl ⟨_, _, rfl⟩

theorem byteStep_position (s : State) : (byteStep s).position = s.position + 1 := by
  obtain ⟨n, v, h⟩ | ⟨ph, h⟩ := byteStep_cases s <;> rw [h] <;> rfl

theorem byteStep_same (s : State) : SameElsewhere s (byteStep s) := by
  obtain ⟨n, v, h⟩ | ⟨ph, h⟩ := byteStep_cases s <;> rw [h] <;> exact ⟨rfl, rfl, rfl, rfl, rfl, rfl, rfl, rfl⟩

theorem byteStep_wf {s : State} (hs : Memory.wf s.frameBuffer) : Memory.wf (byteStep s).frameBuffer := by
  obtain ⟨n, v, h⟩ | ⟨ph, h⟩ := byteStep_cases s <;> rw [h]
  · exact emit_wf n v (s := advance 1 s) hs
  · exact hs

theorem byteStep_below {s : State} (hs : Memory.below s.frameBuffer 1024)
    (hc : s.bytesWritten.toNat ≤ 1024) : Memory.below (byteStep s).frameBuffer 1024 := by
  obtain ⟨n, v, h⟩ | ⟨ph, h⟩ := byteStep_cases s <;> rw [h]
  · exact emit_below n v (s := advance 1 s) hs hc
  · exact hs

theorem byteStep_cursor_le {s : State} (hc : s.bytesWritten.toNat ≤ 1024) :
    (byteStep s).bytesWritten.toNat ≤ 1024 := by
  obtain ⟨n, v, h⟩ | ⟨ph, h⟩ := byteStep_cases s <;> rw [h]
  · exact emit_cursor_le n v (s := advance 1 s) hc
  · exact hc

theorem byteStep_cursor_ge (s : State) : s.bytesWritten.toNat ≤ (byteStep s).bytesWritten.toNat := by
  obtain ⟨n, v, h⟩ | ⟨ph, h⟩ := byteStep_cases s <;> rw [h]
  · rw [setPhase_bytesWritten, emit_cursor]; exact Nat.le_add_right _ _
  · exact Nat.le_refl _

/-- A byte step that fills the buffer ends in Ground (42_decode_frame.md R87 (c)). -/
theorem byteStep_full {s : State} (hc : s.bytesWritten.toNat < 1024)
    (hf : (byteStep s).bytesWritten.toNat = 1024) : (byteStep s).phase = .ground := by
  obtain ⟨n, v, h⟩ | ⟨ph, h⟩ := byteStep_cases s <;> rw [h] at hf ⊢
  · rfl
  · exact absurd hf (Nat.ne_of_lt hc)

/-- The bytes of the Frame Buffer after a byte step: those the cursor has passed are written, the others as before. -/
theorem byteStep_frameByte {s : State} (hs : Memory.wf s.frameBuffer) (a : Nat) :
    (s.bytesWritten.toNat ≤ a → a < (byteStep s).bytesWritten.toNat → ((byteStep s).frameByte a).isSome = true) ∧
    (a < s.bytesWritten.toNat ∨ (byteStep s).bytesWritten.toNat ≤ a → (byteStep s).frameByte a = s.frameByte a) := by
  obtain ⟨n, v, h⟩ | ⟨ph, h⟩ := byteStep_cases s <;> rw [h]
  · have hb := emit_frameByte n v (s := advance 1 s) hs a
    have hc := emit_cursor n v (advance 1 s)
    rw [advance_bytesWritten] at hc
    rw [setPhase_bytesWritten, hc]
    refine ⟨fun h1 h2 => ?_, fun h1 => ?_⟩
    · show ((emit n v (advance 1 s)).frameByte a).isSome = true
      rw [hb, if_pos (by rw [advance_bytesWritten]; exact ⟨h1, h2⟩)]; rfl
    · show (emit n v (advance 1 s)).frameByte a = s.frameByte a
      rw [hb, if_neg (by rw [advance_bytesWritten]; omega)]; rfl
  · refine ⟨fun h1 h2 => absurd h2 (Nat.not_lt.mpr h1), fun _ => rfl⟩

theorem guardsHold_iff {s : State} :
    guardsHold s = true ↔
      ∃ L, s.call = some L ∧ s.bytesWritten.toNat < 1024 ∧ s.position.toNat < L.toNat := by
  unfold guardsHold
  cases h : s.call with
  | none => simp
  | some L => simp [bufferNotFull, streamNotExhausted]

/-- `position` after a byte step that the guards admit: one more, with no wrap. -/
theorem byteStep_position_toNat {s : State} {L : Config.PosWord} (h : s.position.toNat < L.toNat) :
    (byteStep s).position.toNat = s.position.toNat + 1 := by
  have hL : L.toNat < 2 ^ 32 := L.isLt
  rw [byteStep_position]
  exact advance_position_toNat (k := 1) (by omega)

/-- An invariant of guarded byte steps holds after the main loop. -/
theorem callLoop_keeps {P : State → Prop} (hstep : ∀ s, P s → guardsHold s = true → P (byteStep s)) (fuel : Nat)
    {s : State} (hs : P s) : P (callLoop fuel s) := by
  induction fuel generalizing s with
  | zero => exact hs
  | succ fuel ih =>
    simp only [callLoop]
    split
    · exact ih (hstep s hs ‹_›)
    · exact hs

theorem remaining_byteStep {s : State} (hg : guardsHold s = true) : remaining (byteStep s) + 1 = remaining s := by
  obtain ⟨L, hL, -, hp⟩ := guardsHold_iff.mp hg
  have h1 : (byteStep s).call = some L := (byteStep_same s).1.trans hL
  simp only [remaining, h1, hL, byteStep_position_toNat hp]
  omega

/-- With fuel for every byte that remains the main loop ends because a guard fails (42_decode_frame.md R86). -/
theorem callLoop_exits {fuel : Nat} {s : State} (hf : remaining s ≤ fuel) : guardsHold (callLoop fuel s) = false := by
  induction fuel generalizing s with
  | zero =>
    simp only [callLoop]
    cases hg : guardsHold s with
    | false => rfl
    | true => have := remaining_byteStep hg; omega
  | succ fuel ih =>
    simp only [callLoop]
    split
    · have := remaining_byteStep ‹_›
      exact ih (by omega)
    · simpa using ‹¬guardsHold s = true›

/-- One turn of the main loop. -/
theorem loopExit_unfold (s : State) : loopExit s = if guardsHold s then loopExit (byteStep s) else s := by
  unfold loopExit
  cases hg : guardsHold s with
  | true =>
    rw [← remaining_byteStep hg]
    simp only [callLoop, hg, if_true]
  | false =>
    cases remaining s with
    | zero => rfl
    | succ k => simp [callLoop, hg]

theorem loopExit_guards (s : State) : guardsHold (loopExit s) = false := callLoop_exits (Nat.le_refl _)

/-- Guarded byte steps leave alone what a byte step leaves alone. -/
theorem callLoop_same (k : Nat) (s : State) : SameElsewhere s (callLoop k s) := by
  refine callLoop_keeps (P := fun u => SameElsewhere s u) (fun u hu _ => ?_) k ⟨rfl, rfl, rfl, rfl, rfl, rfl, rfl, rfl⟩
  obtain ⟨a1, a2, a3, a4, a5, a6, a7, a8⟩ := hu
  obtain ⟨b1, b2, b3, b4, b5, b6, b7, b8⟩ := byteStep_same u
  exact ⟨b1.trans a1, b2.trans a2, b3.trans a3, b4.trans a4, b5.trans a5, b6.trans a6, b7.trans a7, b8.trans a8⟩

/-- The main loop leaves alone what byte steps leave alone. -/
theorem loopExit_same (s : State) : SameElsewhere s (loopExit s) := callLoop_same _ s

/-- Where the main loop ends does not depend on how many of its byte steps have been made. -/
theorem loopExit_callLoop (k : Nat) (s : State) : loopExit (callLoop k s) = loopExit s := by
  induction k generalizing s with
  | zero => rfl
  | succ k ih =>
    simp only [callLoop]
    split
    · rw [ih, loopExit_unfold s, if_pos ‹_›]
    · rfl

/-- Byte steps never add to what remains. -/
theorem remaining_callLoop_le (k : Nat) (s : State) : remaining (callLoop k s) ≤ remaining s := by
  induction k generalizing s with
  | zero => exact Nat.le_refl _
  | succ k ih =>
    simp only [callLoop]
    split
    · have h := remaining_byteStep ‹guardsHold s = true›
      exact Nat.le_trans (ih _) (by omega)
    · exact Nat.le_refl _

theorem loopExit_call (s : State) : (loopExit s).call = s.call := (loopExit_same s).1

/-- The cursor during the main loop never falls, and every byte it passes is written, every other byte as before. -/
theorem loopExit_frameByte {s : State} (hs : Memory.wf s.frameBuffer) (a : Nat) :
    s.bytesWritten.toNat ≤ (loopExit s).bytesWritten.toNat ∧
    (s.bytesWritten.toNat ≤ a → a < (loopExit s).bytesWritten.toNat → ((loopExit s).frameByte a).isSome = true) ∧
    (a < s.bytesWritten.toNat ∨ (loopExit s).bytesWritten.toNat ≤ a → (loopExit s).frameByte a = s.frameByte a) := by
  refine (callLoop_keeps (P := fun u => Memory.wf u.frameBuffer ∧ s.bytesWritten.toNat ≤ u.bytesWritten.toNat ∧
    (s.bytesWritten.toNat ≤ a → a < u.bytesWritten.toNat → (u.frameByte a).isSome = true) ∧
    (a < s.bytesWritten.toNat ∨ u.bytesWritten.toNat ≤ a → u.frameByte a = s.frameByte a)) (fun u hu _ => ?_) _
    ⟨hs, Nat.le_refl _, fun h1 h2 => absurd h2 (Nat.not_lt.mpr h1), fun _ => rfl⟩).2
  obtain ⟨hw, hge, hin, hout⟩ := hu
  have hge' := byteStep_cursor_ge u
  obtain ⟨bin, bout⟩ := byteStep_frameByte hw a
  refine ⟨byteStep_wf hw, by omega, fun h1 h2 => ?_, fun h => ?_⟩
  · by_cases h3 : u.bytesWritten.toNat ≤ a
    · exact bin h3 h2
    · rw [bout (by omega)]; exact hin h1 (by omega)
  · rw [bout (by omega)]; exact hout (by omega)

/-- An idle block runs the whole call. -/
theorem execDecodeFrame_idle {s : State} (h : s.call = none) :
    execDecodeFrame s = .next (finishCall (acceptCall s)) := by
  unfold execDecodeFrame
  rw [if_neg]; simp [h]

/-- An idle block runs `RESET`. -/
theorem execReset_idle {s : State} (h : s.call = none) :
    execReset s = .next { fullReset s with frameComplete := false } := by
  unfold execReset
  rw [if_neg]; simp [h]

/-- Acceptance: the call is in progress with the sampled length, after a loop reset if the position is not before the end. -/
theorem acceptCall_cases (s : State) :
    (s.position.toNat < s.streamLen.toNat ∧ acceptCall s = { s with call := some s.streamLen }) ∨
    (s.streamLen.toNat ≤ s.position.toNat ∧ acceptCall s = { fullReset s with call := some s.streamLen }) := by
  unfold acceptCall
  split
  · exact .inl ⟨‹_›, rfl⟩
  · exact .inr ⟨by omega, rfl⟩

/-- The end of a call: full and true, or not full and false. -/
theorem endCall_cases (s : State) :
    (s.bytesWritten.toNat = 1024 ∧
      endCall s = { s with bytesWritten := 0, frameComplete := true, call := none }) ∨
    (s.bytesWritten.toNat ≠ 1024 ∧ endCall s = { s with frameComplete := false, call := none }) := by
  unfold endCall
  split
  · exact .inl ⟨‹_›, rfl⟩
  · exact .inr ⟨‹_›, rfl⟩

/-- What acceptance leaves alone, and the sampled length. -/
theorem acceptCall_same (s : State) :
    (acceptCall s).stream = s.stream ∧ (acceptCall s).streamLen = s.streamLen ∧ (acceptCall s).command = s.command ∧
    (acceptCall s).resetInput = s.resetInput ∧ (acceptCall s).draws = s.draws ∧ (acceptCall s).grain = s.grain ∧
    (acceptCall s).frameBuffer = s.frameBuffer ∧ (acceptCall s).frameComplete = s.frameComplete ∧
    (acceptCall s).call = some s.streamLen := by
  rcases acceptCall_cases s with ⟨_, h⟩ | ⟨_, h⟩ <;> rw [h] <;> exact ⟨rfl, rfl, rfl, rfl, rfl, rfl, rfl, rfl, rfl⟩

/-- What the end of a call leaves alone; the block is idle after it. -/
theorem endCall_same (s : State) :
    (endCall s).stream = s.stream ∧ (endCall s).streamLen = s.streamLen ∧ (endCall s).command = s.command ∧
    (endCall s).resetInput = s.resetInput ∧ (endCall s).draws = s.draws ∧ (endCall s).grain = s.grain ∧
    (endCall s).frameBuffer = s.frameBuffer ∧ (endCall s).position = s.position ∧ (endCall s).phase = s.phase ∧
    (endCall s).call = none := by
  rcases endCall_cases s with ⟨_, h⟩ | ⟨_, h⟩ <;> rw [h] <;> exact ⟨rfl, rfl, rfl, rfl, rfl, rfl, rfl, rfl, rfl, rfl⟩

/-- What the rest of a call leaves alone; the block is idle after it. -/
theorem finishCall_same (s : State) :
    (finishCall s).stream = s.stream ∧ (finishCall s).streamLen = s.streamLen ∧ (finishCall s).command = s.command ∧
    (finishCall s).resetInput = s.resetInput ∧ (finishCall s).draws = s.draws ∧ (finishCall s).grain = s.grain ∧
    (finishCall s).call = none := by
  obtain ⟨a1, a2, a3, a4, a5, a6, -, -, -, a7⟩ := endCall_same (loopExit s)
  obtain ⟨-, -, b3, b4, b5, b6, b7, b8⟩ := loopExit_same s
  exact ⟨a1.trans b6, a2.trans b3, a3.trans b4, a4.trans b5, a5.trans b7, a6.trans b8, a7⟩

/-- What a hardware reset leaves: its reset values, the stream and `STREAM_LEN` as they were. -/
theorem hardwareReset_fields (s : State) :
    (hardwareReset s).position = 0 ∧ (hardwareReset s).phase = .ground ∧ (hardwareReset s).bytesWritten = 0 ∧
    (hardwareReset s).call = none ∧ (hardwareReset s).frameComplete = false ∧
    (hardwareReset s).stream = s.stream ∧ (hardwareReset s).streamLen = s.streamLen := by
  have hu : (underway s).stream = s.stream ∧ (underway s).streamLen = s.streamLen := by
    unfold underway
    split
    · exact ⟨rfl, rfl⟩
    · exact ⟨rfl, rfl⟩
    · exact ⟨(acceptCall_same _).1, (acceptCall_same _).2.1⟩
  unfold hardwareReset resetBlock
  split
  · exact ⟨rfl, rfl, rfl, rfl, rfl, hu⟩
  · exact ⟨rfl, rfl, rfl, by simpa using ‹¬(underway s).busy = true›, rfl, hu⟩

end Sys2Proof.Machine
end

