-- ==== Sys2Proof/Laws/PerInstr.lean ====
section
/-! SUPPORT. One lemma for each constructor of Instr: its encoding is of the length and level of its row of the opcode table,
and the row's pattern matches it. -/

namespace Sys2Proof.Laws

/-- A mask of whole low bytes left open: the last byte of a number does not matter. -/
theorem and_mask_byte (a m : Nat) (b : Byte) : (a * 256 + b.toNat) &&& (m * 256) = (a &&& m) * 256 := by
  have hb : b.toNat < 2 ^ 8 := b.isLt
  rw [show (256 : Nat) = 2 ^ 8 from rfl, Nat.mul_comm a, Nat.mul_comm m, Nat.mul_comm (a &&& m)]
  apply Nat.eq_of_testBit_eq
  intro i
  rw [Nat.testBit_and, Nat.testBit_two_pow_mul_add a hb, Nat.testBit_two_pow_mul, Nat.testBit_two_pow_mul,
    Nat.testBit_and]
  by_cases h : 8 ≤ i
  · simp [h, Nat.not_lt.mpr h]
  · simp [h]

/-- The row pattern of a long run matches whatever its last byte is. -/
theorem longRow_matches {m : Byte} {hi : Nat} (h : ∀ l : BitVec 7, (m.toNat * 256 + (longByte l).toNat) &&& 0xFF80 = hi)
    (l : BitVec 7) (b : Byte) : numberOf [m, longByte l, b] &&& 0xFF8000 = hi * 256 := by
  have e : numberOf [m, longByte l, b] = (m.toNat * 256 + (longByte l).toNat) * 256 + b.toNat := by
    simp [numberOf]
  rw [e, show (0xFF8000 : Nat) = 0xFF80 * 256 from rfl, and_mask_byte, h l]

namespace EncodingFitsRow

/-- The row of `i` has its level and the length of its encoding, and matches it where `i` is well formed. -/
def Statement (i : Instr) : Prop :=
  ∀ r ∈ sequenceRows ++ microStepRows, r.index = i.rowIndex →
    r.level = i.level ∧ r.lengthBytes = (encode i).length ∧ (i.wf = true → r.matches (encode i) = true)

/-- A row found by its place is the row at that place. -/
theorem of_row {i : Instr} {r0 : OpcodeRow}
    (hrow : (sequenceRows ++ microStepRows).filter (fun r => r.index == i.rowIndex) = [r0])
    (h : r0.level = i.level ∧ r0.lengthBytes = (encode i).length ∧ (i.wf = true → r0.matches (encode i) = true)) :
    Statement i := by
  intro r hr hi
  have hm : r ∈ (sequenceRows ++ microStepRows).filter (fun r => r.index == i.rowIndex) :=
    List.mem_filter.mpr ⟨hr, by simp [hi]⟩
  rw [hrow, List.mem_singleton] at hm
  exact hm ▸ h

theorem lit (v : Byte) : Statement (.lit v) :=
  of_row (r0 := sequenceRows[0]) rfl ⟨rfl, rfl, fun _ => by revert v; decide⟩

theorem escLit55 : Statement .escLit55 := of_row (r0 := sequenceRows[1]) rfl ⟨rfl, rfl, fun _ => by decide⟩

theorem runs55 (n : BitVec 7) : Statement (.runs55 n) :=
  of_row (r0 := sequenceRows[2]) rfl ⟨rfl, rfl, fun _ => by revert n; decide⟩

theorem runl55 (l : BitVec 7) (h : Byte) : Statement (.runl55 l h) :=
  of_row (r0 := sequenceRows[3]) rfl ⟨rfl, rfl, fun _ =>
    decide_eq_true (longRow_matches (m := 0x55#8) (hi := 0x5580) (by decide) l h)⟩

theorem escLitAA : Statement .escLitAA := of_row (r0 := sequenceRows[4]) rfl ⟨rfl, rfl, fun _ => by decide⟩

theorem runsAA (n : BitVec 7) : Statement (.runsAA n) :=
  of_row (r0 := sequenceRows[5]) rfl ⟨rfl, rfl, fun _ => by revert n; decide⟩

theorem runlAA (l : BitVec 7) (h : Byte) : Statement (.runlAA l h) :=
  of_row (r0 := sequenceRows[6]) rfl ⟨rfl, rfl, fun _ =>
    decide_eq_true (longRow_matches (m := 0xAA#8) (hi := 0xAA80) (by decide) l h)⟩

theorem gLit (v : Byte) : Statement (.gLit v) :=
  of_row (r0 := microStepRows[0]) rfl ⟨rfl, rfl, fun _ => by revert v; decide⟩

theorem gEsc55 : Statement .gEsc55 := of_row (r0 := microStepRows[1]) rfl ⟨rfl, rfl, fun _ => by decide⟩

theorem gEscAA : Statement .gEscAA := of_row (r0 := microStepRows[2]) rfl ⟨rfl, rfl, fun _ => by decide⟩

theorem eLitm : Statement .eLitm := of_row (r0 := microStepRows[3]) rfl ⟨rfl, rfl, fun _ => by decide⟩

theorem eRuns (n : BitVec 7) : Statement (.eRuns n) :=
  of_row (r0 := microStepRows[4]) rfl ⟨rfl, rfl, fun _ => by revert n; decide⟩

theorem eRunlo (l : BitVec 7) : Statement (.eRunlo l) :=
  of_row (r0 := microStepRows[5]) rfl ⟨rfl, rfl, fun _ => by revert l; decide⟩

theorem cRunhi (h : Byte) : Statement (.cRunhi h) :=
  of_row (r0 := microStepRows[6]) rfl ⟨rfl, rfl, fun _ => by revert h; decide⟩

/-- A host command has no row with bits. -/
theorem decodeFrame : Statement .decodeFrame := by
  intro r hr hi
  revert r; decide

/-- A host command has no row with bits. -/
theorem reset : Statement .reset := by
  intro r hr hi
  revert r; decide

end EncodingFitsRow

end Sys2Proof.Laws
end

