-- ==== Sys2Proof/Laws/Step.lean ====
section
/-! SUPPORT. What one step can do, said once (`step_cases`); each instruction that a step fetches is one, two or three guarded
byte steps. -/

namespace Sys2Proof.Machine

/-- The micro-step decoded from the byte at `position` in the state's phase never stops: it is a byte step. -/
theorem exec_decodeByte (s : State) :
    exec (decodeByte s.phase (streamRead s s.position.toNat)) s = .next (byteStep s) := by
  unfold byteStep decodeByte
  cases hph : s.phase with
  | ground =>
    cases hm : markerOf (streamRead s s.position.toNat) with
    | none => simp [exec, execGLit, hph]
    | some m => cases m <;> simp [exec, gEscOf, execGEsc55, execGEscAA, hph]
  | escapeActive m =>
    dsimp only
    split
    · simp [exec, execELitm, hph]
    · split
      · simp [exec, execERuns, hph]
      · simp [exec, execERunlo, hph]
  | runLengthContinuation m p => simp [exec, execCRunhi, hph]

theorem callLoop_one {s : State} (hg : guardsHold s = true) : callLoop 1 s = byteStep s := by
  simp [callLoop, hg]

theorem streamRead_same {s t : State} (h : t.stream = s.stream) (i : Nat) : streamRead t i = streamRead s i := by
  simp only [streamRead, h]

/-- A byte step in Ground that finds a marker. -/
theorem byteStep_marker {s : State} {m : Marker} (hph : s.phase = .ground)
    (hm : markerOf (streamRead s s.position.toNat) = some m) : byteStep s = escStep m s := by
  simp only [byteStep, hph, hm]

/-- The guards after a byte step that emits nothing and leaves bytes in the stream. -/
theorem guardsHold_setPhase_advance {s : State} {L : Config.PosWord} (hL : s.call = some L)
    (hc : s.bytesWritten.toNat < 1024) {k : Nat} (hp : s.position.toNat + k < L.toNat) (ph : Phase) :
    guardsHold (setPhase ph (advance k s)) = true := by
  have hlt : L.toNat < 2 ^ 32 := L.isLt
  refine guardsHold_iff.mpr ⟨L, hL, hc, ?_⟩
  rw [setPhase_position, advance_position_toNat (by omega)]
  exact hp

theorem setPhase_setPhase (ph ph' : Phase) (s : State) : setPhase ph (setPhase ph' s) = setPhase ph s := rfl

theorem setPhase_self {ph : Phase} {s : State} (h : s.phase = ph) : setPhase ph s = s := by
  subst h; rfl

/-- The byte at place `k` of the fetch window is the stream's byte there, which is before the end of the stream. -/
theorem fetchWindow_getElem? {s : State} {L : Config.PosWord} (hL : s.call = some L) {k : Nat} {b : Byte}
    (h : (fetchWindow s)[k]? = some b) :
    s.position.toNat + k < L.toNat ∧ streamRead s (s.position.toNat + k) = b := by
  have key : ∀ (n i k : Nat), (bytesFrom s L.toNat n i)[k]? = some b →
      i + k < L.toNat ∧ streamRead s (i + k) = b := by
    intro n
    induction n with
    | zero => intro i k h; simp [bytesFrom] at h
    | succ n ih =>
      intro i k h
      simp only [bytesFrom] at h
      split at h
      · cases k with
        | zero => simp at h; exact ⟨by omega, h⟩
        | succ k =>
          rw [List.getElem?_cons_succ] at h
          have := ih (i + 1) k h
          rw [show i + (k + 1) = i + 1 + k by omega]
          exact this
      · simp at h
  simp only [fetchWindow, hL] at h
  exact key 3 _ _ h

/-- A marker and then a byte in a call with room in the buffer: the first byte step, and what it leaves for the second. -/
theorem byteStep_marker_next {s : State} {L : Config.PosWord} (hL : s.call = some L)
    (hc : s.bytesWritten.toNat < 1024) (hph : s.phase = .ground) {m : Marker} {b1 : Byte}
    (h0 : (fetchWindow s)[0]? = some m.byte) (h1 : (fetchWindow s)[1]? = some b1) :
    guardsHold s = true ∧ byteStep s = escStep m s ∧ guardsHold (byteStep s) = true ∧
      streamRead (byteStep s) (byteStep s).position.toNat = b1 := by
  obtain ⟨hp0, hb0⟩ := fetchWindow_getElem? hL h0
  obtain ⟨hp1, hb1⟩ := fetchWindow_getElem? hL h1
  have hb0' : byteStep s = escStep m s := byteStep_marker hph (by rw [← Nat.add_zero s.position.toNat, hb0, markerOf_byte])
  refine ⟨guardsHold_iff.mpr ⟨L, hL, hc, hp0⟩, hb0', ?_, ?_⟩
  · rw [hb0']; exact guardsHold_setPhase_advance hL hc hp1 _
  · rw [byteStep_position_toNat hp0, streamRead_same (byteStep_same s).2.2.2.2.2.1, hb1]

theorem byteStep_litm {s : State} {m : Marker} (hph : s.phase = .escapeActive m)
    (hb : streamRead s s.position.toNat = 0x00#8) : byteStep s = litmStep m s := by
  simp only [byteStep, hph, hb, if_true]

theorem byteStep_runs {s : State} {m : Marker} {b : Byte} (hph : s.phase = .escapeActive m)
    (hb : streamRead s s.position.toNat = b) (hz : b ≠ 0x00#8) (hh : highBit b = false) :
    byteStep s = runsStep m (low7 b) s := by
  simp only [byteStep, hph, hb, if_neg hz, hh, if_true]

theorem byteStep_runlo {s : State} {m : Marker} {b : Byte} (hph : s.phase = .escapeActive m)
    (hb : streamRead s s.position.toNat = b) (hz : b ≠ 0x00#8) (hh : highBit b = true) :
    byteStep s = runloStep m (low7 b) s := by
  simp only [byteStep, hph, hb, if_neg hz, hh, Bool.true_eq_false, if_false]

theorem byteStep_runhi {s : State} {m : Marker} {p : BitVec 7} {b : Byte} (hph : s.phase = .runLengthContinuation m p)
    (hb : streamRead s s.position.toNat = b) : byteStep s = runhiStep m p b s := by
  simp only [byteStep, hph, hb]

/-- Returning to Ground after an emission from Ground leaves the emission. -/
theorem ground_emit {s : State} (hph : s.phase = .ground) (k n : Nat) (v : Byte) :
    setPhase .ground (emit n v (advance k s)) = emit n v (advance k s) := setPhase_self hph

/-- A complete sequence at `position` is one, two or three guarded byte steps. -/
theorem exec_sequence {s : State} {L : Config.PosWord} (hL : s.call = some L)
    (hc : s.bytesWritten.toNat < 1024) (hph : s.phase = .ground) {i : Instr} {rest : List Byte}
    (hd : decodeSequence (fetchWindow s) = .ok i rest) :
    ∃ k, 1 ≤ k ∧ k ≤ 3 ∧ exec i s = .next (callLoop k s) := by
  obtain ⟨b0, hbs, hm, rfl⟩ | ⟨m, ⟨hbs, rfl⟩ | ⟨b1, hbs, hz, hh, rfl⟩ | ⟨b1, b2, hbs, hz, hh, rfl⟩⟩ :=
    decodeSequence_cases hd
  · obtain ⟨hp0, hb0⟩ := fetchWindow_getElem? hL (k := 0) (b := b0) (by rw [hbs]; rfl)
    have hg : guardsHold s = true := guardsHold_iff.mpr ⟨L, hL, hc, hp0⟩
    refine ⟨1, by omega, by omega, ?_⟩
    rw [callLoop_one hg]
    rw [Nat.add_zero] at hb0
    simp only [exec, execLit, runSequence, byteStep, hph, hb0, hm, litStep]
  · obtain ⟨hg, hb, hg1, hr⟩ := byteStep_marker_next hL hc hph (m := m) (b1 := 0x00#8) (by rw [hbs]; rfl) (by rw [hbs]; rfl)
    refine ⟨2, by omega, by omega, ?_⟩
    have h2 : callLoop 2 s = litmStep m (byteStep s) := by
      simp only [callLoop, hg, hg1, if_true]
      exact byteStep_litm (by rw [hb]; rfl) hr
    rw [h2, hb]
    have e : litmStep m (escStep m s) = emit 1 m.byte (advance 2 s) := by
      rw [← ground_emit hph, ← advance_advance 1 1 s]; rfl
    rw [e]
    cases m <;> simp only [exec, escLitOf, execEscLit55, execEscLitAA, runSequence, hph]
  · obtain ⟨hg, hb, hg1, hr⟩ := byteStep_marker_next hL hc hph (m := m) (b1 := b1) (by rw [hbs]; rfl) (by rw [hbs]; rfl)
    refine ⟨2, by omega, by omega, ?_⟩
    have h2 : callLoop 2 s = runsStep m (low7 b1) (byteStep s) := by
      simp only [callLoop, hg, hg1, if_true]
      exact byteStep_runs (by rw [hb]; rfl) hr hz hh
    rw [h2, hb]
    have e : runsStep m (low7 b1) (escStep m s) = emit (shortLength (low7 b1)) (runValue m) (advance 2 s) := by
      rw [← ground_emit hph, ← advance_advance 1 1 s]; rfl
    rw [e]
    cases m <;> simp only [exec, runsOf, execRuns55, execRunsAA, runSequence, hph]
  · obtain ⟨hg, hb, hg1, hr⟩ := byteStep_marker_next hL hc hph (m := m) (b1 := b1) (by rw [hbs]; rfl) (by rw [hbs]; rfl)
    obtain ⟨hp2, hb2⟩ := fetchWindow_getElem? hL (k := 2) (b := b2) (by rw [hbs]; rfl)
    refine ⟨3, by omega, by omega, ?_⟩
    have h1 : byteStep (byteStep s) = runloStep m (low7 b1) (byteStep s) :=
      byteStep_runlo (by rw [hb]; rfl) hr hz hh
    have h1' : byteStep (byteStep s) = setPhase (.runLengthContinuation m (low7 b1)) (advance 2 s) := by
      rw [h1, hb, ← advance_advance 1 1 s]; rfl
    have hlt : L.toNat < 2 ^ 32 := L.isLt
    have hg2 : guardsHold (byteStep (byteStep s)) = true := by
      rw [h1']; exact guardsHold_setPhase_advance hL hc hp2 _
    have hr2 : streamRead (byteStep (byteStep s)) (byteStep (byteStep s)).position.toNat = b2 := by
      rw [h1', setPhase_position, advance_position_toNat (by omega), ← hb2]; rfl
    have h3 : callLoop 3 s = runhiStep m (low7 b1) b2 (byteStep (byteStep s)) := by
      simp only [callLoop, hg, hg1, hg2, if_true]
      exact byteStep_runhi (by rw [h1']; rfl) hr2
    rw [h3, h1']
    have e : runhiStep m (low7 b1) b2 (setPhase (.runLengthContinuation m (low7 b1)) (advance 2 s)) =
        emit (longLength (low7 b1) b2).toNat (runValue m) (advance 3 s) := by
      rw [← ground_emit hph, ← advance_advance 2 1 s]; rfl
    rw [e]
    cases m <;> simp only [exec, runlOf, execRunl55, execRunlAA, runSequence, hph]

/-- Whatever a guarded step of a call fetches is one, two or three guarded byte steps; at the level of micro-steps, one. -/
theorem exec_fetchInstr {s : State} (hg : guardsHold s = true) :
    ∃ k, 1 ≤ k ∧ k ≤ 3 ∧ (s.grain = .microStep → k = 1) ∧ exec (fetchInstr s) s = .next (callLoop k s) := by
  obtain ⟨L, hL, hc, hp⟩ := guardsHold_iff.mp hg
  have hmicro : exec (decodeByte s.phase (streamRead s s.position.toNat)) s = .next (callLoop 1 s) := by
    rw [callLoop_one hg]; exact exec_decodeByte s
  unfold fetchInstr
  split
  · rename_i hgr hph
    cases hd : decodeSequence (fetchWindow s) with
    | ok i rest =>
      obtain ⟨k, h1, h3, hk⟩ := exec_sequence hL hc hph hd
      exact ⟨k, h1, h3, fun h => absurd (hgr.symm.trans h) (by decide), hk⟩
    | cut why => exact ⟨1, by omega, by omega, fun _ => rfl, hmicro⟩
  · exact ⟨1, by omega, by omega, fun _ => rfl, hmicro⟩

/-- One step of a call in progress at the finer levels of step. -/
theorem step_call {s : State} {L : Config.PosWord} (hL : s.call = some L) (hc : s.command = none)
    (hr : s.resetInput = false) (hg : s.grain = .microStep ∨ s.grain = .sequence) :
    step s = if guardsHold s then exec (fetchInstr s) s else .next (endCall s) := by
  simp only [step, turn, hc, hr, hL, busy_eq_isSome, Option.isSome_none, Option.isSome_some, Bool.and_false,
    Bool.false_eq_true, if_false, if_true, callTurn]
  rcases hg with h | h <;> simp only [h]

/-- Everything a step that answers a next state can have done. -/
theorem step_cases {s t : State} (h : step s = .next t) :
    (s.resetInput = true ∧ (s.busy = true → s.command = none) ∧ t = hardwareReset s) ∨
    (s.resetInput = false ∧ s.call = none ∧
      ((s.command = none ∧ t = s) ∨
       (s.command = some .reset ∧ t = { fullReset (takeRequest s) with frameComplete := false }) ∨
       (s.command = some .decodeFrame ∧ s.grain ≠ .hostCommand ∧ t = acceptCall (takeRequest s)) ∨
       (s.command = some .decodeFrame ∧ s.grain = .hostCommand ∧
         t = finishCall (acceptCall (takeRequest s))))) ∨
    (s.resetInput = false ∧ s.command = none ∧ s.busy = true ∧
      ((s.grain = .hostCommand ∧ t = finishCall s) ∨
       (guardsHold s = true ∧ ∃ k, 1 ≤ k ∧ k ≤ 3 ∧ (s.grain = .microStep → k = 1) ∧ t = callLoop k s) ∨
       (guardsHold s = false ∧ t = endCall s))) := by
  have hturn : turn s = .next t := h
  unfold turn at hturn
  split at hturn
  · cases hturn
  rename_i hbc
  split at hturn
  · rename_i hr
    cases hturn
    refine .inl ⟨hr, fun hb => ?_, rfl⟩
    cases hcmd : s.command with
    | none => rfl
    | some c => simp [hcmd] at hbc; simp [hbc] at hb
  · rename_i hr
    have hr' : s.resetInput = false := by simpa using hr
    split at hturn
    · rename_i c hcmd
      have hidle : s.call = none := by
        have := hbc; simp [hcmd] at this; exact this
      refine .inr (.inl ⟨hr', hidle, ?_⟩)
      cases c with
      | reset =>
        simp only [commandTurn, exec] at hturn
        rw [execReset_idle (s := takeRequest s) hidle] at hturn
        cases hturn
        exact .inr (.inl ⟨hcmd, rfl⟩)
      | decodeFrame =>
        simp only [commandTurn] at hturn
        split at hturn
        · rename_i hgr
          simp only [exec] at hturn
          rw [execDecodeFrame_idle (s := takeRequest s) hidle] at hturn
          cases hturn
          exact .inr (.inr (.inr ⟨hcmd, hgr, rfl⟩))
        · rename_i hgr
          cases hturn
          exact .inr (.inr (.inl ⟨hcmd, by intro h; exact absurd (hgr.symm.trans h) (by decide), rfl⟩))
        · rename_i hgr
          cases hturn
          exact .inr (.inr (.inl ⟨hcmd, by intro h; exact absurd (hgr.symm.trans h) (by decide), rfl⟩))
    · rename_i hcmd
      split at hturn
      · rename_i hb
        refine .inr (.inr ⟨hr', hcmd, hb, ?_⟩)
        have hfine : (if guardsHold s = true then exec (fetchInstr s) s else .next (endCall s)) = .next t →
            (guardsHold s = true ∧ ∃ k, 1 ≤ k ∧ k ≤ 3 ∧ (s.grain = .microStep → k = 1) ∧ t = callLoop k s) ∨
            (guardsHold s = false ∧ t = endCall s) := by
          intro hf
          split at hf
          · rename_i hg
            obtain ⟨k, h1, h3, hk, he⟩ := exec_fetchInstr hg
            rw [he] at hf
            cases hf
            exact .inl ⟨hg, k, h1, h3, hk, rfl⟩
          · cases hf
            exact .inr ⟨by simpa using ‹¬guardsHold s = true›, rfl⟩
        unfold callTurn at hturn
        split at hturn
        · cases hturn
          exact .inl ⟨‹_›, rfl⟩
        · exact .inr (hfine hturn)
        · exact .inr (hfine hturn)
      · rename_i hb
        cases hturn
        exact .inr (.inl ⟨hr', by simpa using hb, .inl ⟨hcmd, rfl⟩⟩)

end Sys2Proof.Machine
end

