-- ==== Sys2Proof/Tests/Slice0.lean ====
section
/-! SUPPORT. The model's own tests, each expected result taken from the spec (95_test_vectors.md or a rule, named in its
comment), and a witness for the hypotheses of each statement. -/

namespace Sys2Proof.Tests

open Sys2Proof.Machine

/-! ## WellFormed: each check refuses an ill-formed term (R51, R52) -/

theorem test_wf_refuses_literal_markers :
    (Instr.lit 0x55).wf = false ∧ (Instr.lit 0xAA).wf = false ∧ (Instr.gLit 0x55).wf = false ∧
    (Instr.gLit 0xAA).wf = false := by decide

theorem test_wf_refuses_short_run_of_zero :
    (Instr.runs55 0).wf = false ∧ (Instr.runsAA 0).wf = false ∧ (Instr.eRuns 0).wf = false := by decide

theorem test_wf_accepts_neighbours :
    (Instr.lit 0x54).wf = true ∧ (Instr.gLit 0xAB).wf = true ∧ (Instr.runs55 1).wf = true ∧
    (Instr.runl55 0 0).wf = true := by decide

/-! ## Decoding: words written out from R50 to R52 and R55, bit 7 first -/

/-- F1: `vvvvvvvv` (T7, V6). -/
theorem test_decode_lit : decodeSequence [0b00010010, 0x34] = .ok (.lit 0x12) [0x34] ∧
    decodeSequence [0b01010100] = .ok (.lit 0x54) [] := by decide

/-- F2a: `m`, `00000000`. -/
theorem test_decode_escLit : decodeSequence [0b01010101, 0b00000000] = .ok .escLit55 [] ∧
    decodeSequence [0b10101010, 0b00000000] = .ok .escLitAA [] := by decide

/-- F2b: `m`, `0nnnnnnn`; a marker value is a length there (V14). -/
theorem test_decode_runs : decodeSequence [0b01010101, 0b01010101] = .ok (.runs55 85) [] ∧
    decodeSequence [0b10101010, 0b00000101, 9] = .ok (.runsAA 5) [9] := by decide

/-- F3: `m`, `1lllllll`, `hhhhhhhh` (T6, V18). -/
theorem test_decode_runl : decodeSequence [0b01010101, 0b10000001, 0b00000010] = .ok (.runl55 1 2) [] ∧
    decodeSequence [0b10101010, 0b10101010, 0b11111111] = .ok (.runlAA 42 255) [] := by decide

/-- Sequences cut by the end of the bytes (R59). -/
theorem test_decode_cut : decodeSequence [] = .cut .noByte ∧ decodeSequence [0x55] = .cut (.afterMarker .m55) ∧
    decodeSequence [0xAA, 0x85] = .cut (.afterLow .mAA 5) := by decide

/-- The micro-steps of phase Ground (R51, V1, V4, V5). -/
theorem test_decode_ground : decodeByte .ground 0b00010010 = .gLit 0x12 ∧ decodeByte .ground 0b01010101 = .gEsc55 ∧
    decodeByte .ground 0b10101010 = .gEscAA ∧ decodeByte .ground 0x00 = .gLit 0x00 := by decide

/-- The micro-steps of phase EscapeActive (R52, V7, V10, V18). -/
theorem test_decode_escapeActive : decodeByte (.escapeActive .m55) 0b00000000 = .eLitm ∧
    decodeByte (.escapeActive .mAA) 0b00000001 = .eRuns 1 ∧ decodeByte (.escapeActive .m55) 0b01111111 = .eRuns 127 ∧
    decodeByte (.escapeActive .m55) 0b10101010 = .eRunlo 42 := by decide

/-- The micro-step of phase RunLengthContinuation (R55, V25). -/
theorem test_decode_continuation : decodeByte (.runLengthContinuation .m55 3) 0b01010101 = .cRunhi 0x55 := by decide

/-- Encodings of R60: `RUNL 0x55, 1016` is `55 F8 07` (P1), `RUNS 0xAA, 50` is `AA 32` (P2). -/
theorem test_encode : encode (.runl55 0x78 7) = [0x55, 0xF8, 0x07] ∧ encode (.runsAA 50) = [0xAA, 0x32] ∧
    encode (.eRunlo 1) = [0x81] := by decide

/-- Table words: the first byte is the most significant (30_encoding.md section 7). -/
theorem test_table_words : decodeTableWord 24 0xAA8000 = some (.runlAA 0 0) ∧
    decodeTableWord 16 0x5501 = some (.runs55 1) ∧ decodeTableWord 8 0x55 = some .gEsc55 ∧
    decodeTableWord 0 0 = none := by decide

/-! ## One step of an instruction -/

/-- A state of the block by its four Decoder State fields, in a call of length 100. -/
def at4 (position : Config.PosWord) (ph : Phase) (bytesWritten : Config.BwWord) : State :=
  { State.reset with position := position, phase := ph, bytesWritten := bytesWritten, call := some 100 }

/-- The four fields, and the Frame Buffer's listed bytes at two indices. -/
def view (o : Host.Outcome State Fault Refusal) (i j : Nat) :
    Option (Observation × Option Byte × Option Byte) :=
  (nextState? o).map fun t => (decoderFields t, t.frameByte i, t.frameByte j)

/-- V1. -/
theorem test_gLit : view (exec (.gLit 0x12) (at4 0 .ground 0)) 0 1 = some (⟨1, none, none, 1⟩, some 0x12, none) := by
  decide

/-- V2: the last byte of a frame. -/
theorem test_gLit_last : view (exec (.gLit 0) (at4 0 .ground 1023)) 1023 1024 =
    some (⟨1, none, none, 1024⟩, some 0, none) := by decide

/-- V4. -/
theorem test_gEsc55 : view (exec .gEsc55 (at4 0 .ground 0)) 0 1 = some (⟨1, some 0x55, none, 0⟩, none, none) := by decide

/-- V5. -/
theorem test_gEscAA : view (exec .gEscAA (at4 3 .ground 500)) 500 501 =
    some (⟨4, some 0xAA, none, 500⟩, none, none) := by decide

/-- V7, V8: the marker itself, not its run value. -/
theorem test_eLitm : view (exec .eLitm (at4 1 (.escapeActive .m55) 0)) 0 1 =
      some (⟨2, none, none, 1⟩, some 0x55, none) ∧
    view (exec .eLitm (at4 1 (.escapeActive .mAA) 0)) 0 1 = some (⟨2, none, none, 1⟩, some 0xAA, none) := by decide

/-- V9: five bytes. -/
theorem test_eRuns : view (exec (.eRuns 5) (at4 1 (.escapeActive .mAA) 0)) 4 5 =
    some (⟨2, none, none, 5⟩, some 0xFF, none) := by decide

/-- V12: capacity 10, run 50. -/
theorem test_eRuns_clipped : view (exec (.eRuns 0x32) (at4 1 (.escapeActive .mAA) 1014)) 1023 1024 =
    some (⟨2, none, none, 1024⟩, some 0xFF, none) := by decide

/-- V16: `some(0)`, not `none`. -/
theorem test_eRunlo_zero : view (exec (.eRunlo 0) (at4 1 (.escapeActive .mAA) 9)) 9 10 =
    some (⟨2, some 0xAA, some 0, 9⟩, none, none) := by decide

/-- V27: capacity 24, run 42. -/
theorem test_cRunhi : view (exec (.cRunhi 0) (at4 2 (.runLengthContinuation .mAA 42) 1000)) 1023 1024 =
    some (⟨3, none, none, 1024⟩, some 0xFF, none) := by decide

/-- V23: a run of length 0. -/
theorem test_cRunhi_zero : view (exec (.cRunhi 0) (at4 2 (.runLengthContinuation .m55 0) 7)) 7 8 =
    some (⟨3, none, none, 7⟩, none, none) := by decide

/-- V24, at a cursor near the end: bit 7 of the continuation byte is not masked, so the run is 16385, not 1. -/
theorem test_cRunhi_no_mask : view (exec (.cRunhi 0x80) (at4 2 (.runLengthContinuation .m55 1) 1020)) 1023 1024 =
    some (⟨3, none, none, 1024⟩, some 0x00, none) := by decide

/-- T7, R74. -/
theorem test_lit : view (exec (.lit 0x34) (at4 1 .ground 1)) 1 2 = some (⟨2, none, none, 2⟩, some 0x34, none) := by decide

/-- T2, R75. -/
theorem test_escLit55 : view (exec .escLit55 (at4 0 .ground 0)) 0 1 = some (⟨2, none, none, 1⟩, some 0x55, none) := by
  decide

/-- T3, R75. -/
theorem test_escLitAA : view (exec .escLitAA (at4 0 .ground 0)) 0 1 = some (⟨2, none, none, 1⟩, some 0xAA, none) := by
  decide

/-- T5, R76. -/
theorem test_runs55 : view (exec (.runs55 5) (at4 0 .ground 0)) 4 5 = some (⟨2, none, none, 5⟩, some 0x00, none) := by
  decide

/-- T4, R76. -/
theorem test_runsAA : view (exec (.runsAA 5) (at4 0 .ground 0)) 4 5 = some (⟨2, none, none, 5⟩, some 0xFF, none) := by
  decide

/-- R77 with a run of 257 (T6), clipped to a capacity of 4. -/
theorem test_runl55 : view (exec (.runl55 1 2) (at4 0 .ground 1020)) 1023 1024 =
    some (⟨3, none, none, 1024⟩, some 0x00, none) := by decide

/-- V26 as a sequence: `[m, 0x85, 0x00]` is a run of 5. -/
theorem test_runlAA : view (exec (.runlAA 5 0) (at4 0 .ground 0)) 4 5 = some (⟨3, none, none, 5⟩, some 0xFF, none) := by
  decide

/-- V28, V31, V32. -/
theorem test_emit : (emit 0 0 (at4 0 .ground 0)).bytesWritten = 0 ∧ (emit 1 0x12 (at4 0 .ground 1023)).bytesWritten = 1024 ∧
    (emit 32767 0 (at4 0 .ground 1023)).frameBuffer = [(1023, 0x00)] := by decide

/-- R61. -/
theorem test_runValue : runValue .m55 = 0x00 ∧ runValue .mAA = 0xFF := by decide

/-- R54, T6, V22. -/
theorem test_longLength : longLength 1 2 = 257 ∧ longLength 127 255 = 32767 := by decide

/-! ## The commands -/

/-- An idle block that holds a stream. -/
def idleWith (bytes : List Byte) (position : Config.PosWord) (ph : Phase) (bytesWritten : Config.BwWord) : State :=
  { State.reset.withStream bytes with position := position, phase := ph, bytesWritten := bytesWritten }

/-- The answer of a command: `frame_complete`, the four fields, and the bytes it has listed. -/
def answer (o : Host.Outcome State Fault Refusal) : Option (Bool × Observation × Memory) :=
  (nextState? o).map fun t => (t.frameComplete, decoderFields t, t.frameBuffer)

/-- V37: a marker cut by the end of the stream. -/
theorem test_decodeFrame_cut : answer (exec .decodeFrame (idleWith [0x55] 0 .ground 0)) =
    some (false, ⟨1, some 0x55, none, 0⟩, []) := by decide

/-- V39: the loop reset discards a cut sequence. -/
theorem test_decodeFrame_loop_reset :
    answer (exec .decodeFrame (idleWith [0xAA, 0x85] 2 (.runLengthContinuation .mAA 5) 0)) =
    some (false, ⟨2, some 0xAA, some 5, 0⟩, []) := by decide

/-- V43, V44. -/
theorem test_reset : answer (exec .reset { idleWith [0x55] 6 (.escapeActive .m55) 3 with frameComplete := true }) =
    some (false, ⟨0, none, none, 0⟩, []) := by decide

/-- U1: a command while busy is refused by name. -/
theorem test_command_while_busy : nextState? (exec .reset (at4 0 .ground 0)) = none ∧
    nextState? (step { at4 0 .ground 0 with command := some .reset }) = none := by decide

/-! ## The step -/

/-- A word placed with `withFetchWord` after reset is what the very next step runs (log 14): `55 05`, then `12`, then `AA`. -/
theorem test_withFetchWord :
    view (step (State.reset.withFetchWord 16 0x5505)) 4 5 = some (⟨2, none, none, 5⟩, some 0x00, none) ∧
    view (step (State.reset.withFetchWord 8 0x12)) 0 1 = some (⟨1, none, none, 1⟩, some 0x12, none) ∧
    view (step (State.reset.withFetchWord 8 0xAA)) 0 1 = some (⟨1, some 0xAA, none, 0⟩, none, none) := by decide

/-- A command issued by the host is accepted by the next step: `busy = 1`, the loop reset made (R79, R81). -/
theorem test_step_accepts : (nextState? (step { idleWith [0x12] 1 (.escapeActive .m55) 3 with command := some .decodeFrame })).map
    (fun t => (t.call, decoderFields t, t.command)) = some (some 1, ⟨0, none, none, 0⟩, none) := by decide

/-- An idle block stays as it is (R111). -/
theorem test_step_idle : nextState? (step State.reset) = some State.reset := by decide

/-- The asserted reset input abandons a call (R115). -/
theorem test_step_hardware_reset :
    (nextState? (step { at4 3 (.escapeActive .m55) 5 with resetInput := true, frameComplete := true })).map
      (fun t => (t.busy, t.frameComplete, decoderFields t)) = some (false, false, ⟨0, none, none, 0⟩) := by decide

/-- The move that releases an asserted input leaves the reset values (R113); where the input is not asserted it changes
nothing (the model's choice, log 11). -/
theorem test_host_release_reset :
    (fun t : State => (t.busy, t.resetInput, decoderFields t))
      (hostReleaseReset { at4 3 (.escapeActive .m55) 5 with resetInput := true }) =
      (false, false, ⟨0, none, none, 0⟩) ∧
    hostReleaseReset (at4 3 (.escapeActive .m55) 5) = at4 3 (.escapeActive .m55) 5 := by decide

/-! ## Memory and the host -/

theorem test_memory_canonical :
    Memory.write (Memory.write [] 5 1) 3 2 = [(3, 2), (5, 1)] ∧ Memory.wf (Memory.write (Memory.write [] 5 1) 3 2) ∧
    ¬Memory.wf [(5, 1), (3, 2)] ∧ Memory.wf State.reset.frameBuffer ∧ Memory.wf State.reset.stream := by decide

/-- The buffer ends at index 1023 (R34); a byte written from outside between calls reads back (R29). -/
theorem test_host_buffer :
    (nextState? (hostWriteBuffer 1023 7 State.reset)).map (State.frameByte · 1023) = some (some 7) ∧
    hostWriteBuffer 1024 7 State.reset = .fault (.bufferIndexAbsent 1024) := ⟨by decide, rfl⟩

/-- V46 to V48, V50. -/
theorem test_pump : pumpInterval 20 = 50000 ∧ pumpSleep 20 12000 = [.sleep 38000] ∧ pumpSleep 20 50000 = [] := by decide

/-- V49. -/
theorem test_pump_incomplete : pumpActions 20 12000 true State.reset = [] := by decide

/-! ## Witnesses: a concrete state and operands that meet the hypotheses of each statement, one for each clause -/

/-- A call of length 9 in phase `ph`, cursor `bw`, position `p`, at a level of step. -/
def inCall (grain : Level) (p : Config.PosWord) (ph : Phase) (bw : Config.BwWord) (bytes : List Byte) : State :=
  { State.reset.withStream bytes with position := p, phase := ph, bytesWritten := bw, call := some 9, grain := grain }

theorem witness_ByteClassification :
    ((0x54 : Byte) ≠ 0x55#8 ∧ (0x54 : Byte) ≠ 0xAA#8) ∧ ((1 : Byte).toNat = 1 ∧ (127 : Byte).toNat = 127) ∧
    (128 : Byte).toNat = 128 := by decide

theorem witness_MicroStepRoundTrip : (Instr.eRuns 127).wf = true ∧ (Instr.eRuns 127).level = .microStep := by decide

theorem witness_SequenceRoundTrip : (Instr.runlAA 127 255).wf = true ∧ (Instr.runlAA 127 255).level = .sequence := by
  decide

theorem witness_DecodedSequenceEncodesBack : decodeSequence [0xAA, 0xFF, 0x55, 0x01] = .ok (.runlAA 127 0x55) [0x01] := by
  decide

theorem witness_SequenceLengthByteByByte :
    ((0x54 : Byte) ≠ 0x55#8 ∧ (0x54 : Byte) ≠ 0xAA#8) ∧ (127 : Byte).toNat < 128 ∧ 128 ≤ (128 : Byte).toNat := by decide

theorem witness_LongRunLengthAssembly : highBit 0x81 = true ∧ 8 ≤ (8 : Byte).toNat := by decide

theorem witness_EmitWritesClippedRun : Memory.wf (at4 0 .ground 1014).frameBuffer ∧
    1024 - (at4 0 .ground 1014).bytesWritten.toNat ≤ 10 ∧ 1024 - (at4 0 .ground 1014).bytesWritten.toNat ≤ 50 := by decide

theorem witness_EmitStaysInsideFrameBuffer : Memory.below (at4 0 .ground 1024).frameBuffer 1024 ∧
    (at4 0 .ground 1024).bytesWritten.toNat ≤ 1024 := ⟨by decide, Nat.le_refl 1024⟩

/-- For `LiteralByteStep`, `EscapeMarkerStep` and the four statements about sequences. -/
theorem witness_ground_rows : Memory.wf (at4 7 .ground 10).frameBuffer ∧ (at4 7 .ground 10).phase = .ground := by decide

/-- For `EscapeLiteralStep`, `ShortRunStep`, `LongRunLowStep`. -/
theorem witness_escapeActive_rows : Memory.wf (at4 1 (.escapeActive .mAA) 1014).frameBuffer ∧
    (at4 1 (.escapeActive .mAA) 1014).phase = .escapeActive .mAA := by decide

theorem witness_LongRunHighStep : Memory.wf (at4 2 (.runLengthContinuation .m55 127) 0).frameBuffer ∧
    (at4 2 (.runLengthContinuation .m55 127) 0).phase = .runLengthContinuation .m55 127 := by decide

theorem witness_RowsOutsideTheirPhaseAreRefused :
    (at4 1 (.escapeActive .m55) 0).phase ≠ .ground ∧ (Instr.lit 1).level = .sequence ∧
    (at4 0 .ground 0).phase.name ≠ .escapeActive ∧ (at4 0 .ground 0).phase.name ≠ .runLengthContinuation := by decide

/-- Both finer levels of step, a sequence that ends with the stream, and one that the stream cuts. -/
theorem witness_StepRunsDecodedInstruction :
    (∀ g ∈ [Level.microStep, Level.sequence],
      let s := inCall g 7 .ground 1023 [0, 0, 0, 0, 0, 0, 0, 0x55, 0x05]
      s.call = some 9 ∧ s.command = none ∧ s.resetInput = false ∧ s.bytesWritten.toNat < 1024 ∧
        s.position.toNat < (9 : Config.PosWord).toNat ∧ s.grain = g) ∧
    decodeSequence (fetchWindow (inCall .sequence 7 .ground 1023 [0, 0, 0, 0, 0, 0, 0, 0x55, 0x05])) =
      .ok (.runs55 5) [] ∧
    decodeSequence (fetchWindow (inCall .sequence 8 .ground 0 [0, 0, 0, 0, 0, 0, 0, 0, 0x55])) =
      .cut (.afterMarker .m55) ∧
    (inCall .sequence 8 (.escapeActive .m55) 0 []).phase ≠ .ground := by decide

/-- The full buffer, and the exhausted stream one byte short of a full buffer. -/
theorem witness_EndOfCallStep :
    (∀ g ∈ [Level.microStep, Level.sequence],
      let s := inCall g 9 .ground 1024 []
      s.call = some 9 ∧ s.command = none ∧ s.resetInput = false ∧ s.grain = g ∧ s.bytesWritten.toNat = 1024) ∧
    (inCall .microStep 9 .ground 1023 []).bytesWritten.toNat < 1024 ∧
    (9 : Config.PosWord).toNat ≤ (inCall .microStep 9 .ground 1023 []).position.toNat := by decide

/-- The last byte of the stream not yet consumed, and the exhausted stream. -/
theorem witness_AcceptanceStep :
    (∀ p ∈ [(0 : Config.PosWord), 1],
      let s := { idleWith [0x12] p .ground 0 with command := some .decodeFrame }
      s.call = none ∧ s.command = some .decodeFrame ∧ s.resetInput = false ∧ s.grain = .microStep) ∧
    (idleWith [0x12] 0 .ground 0).position.toNat < (idleWith [0x12] 0 .ground 0).streamLen.toNat ∧
    (idleWith [0x12] 1 .ground 0).streamLen.toNat ≤ (idleWith [0x12] 1 .ground 0).position.toNat :=
  ⟨by simp [idleWith, State.reset, State.withStream], by decide, by decide⟩

theorem witness_IdleBlockHoldsItsState : State.reset.call = none ∧ State.reset.command = none ∧
    State.reset.resetInput = false := by decide

theorem witness_NoStepStops : let s := { at4 0 .ground 0 with command := some .reset }
    s.busy = true ∧ s.command.isSome = true := by decide

/-- For `StreamIsNeverWritten`, `PositionAdvancesByOneOrResets` (a byte step) and `StatusBitChangesOnlyAtCompletion` (an
end of call that clears the bit). -/
theorem witness_next_states :
    (nextState? (step (inCall .microStep 8 .ground 0 [0, 0, 0, 0, 0, 0, 0, 0, 0x12]))).isSome = true ∧
    (nextState? (step { inCall .microStep 9 .ground 0 [] with frameComplete := true })).map State.frameComplete =
      some false := by decide

/-- The canonical idle state of the witnesses below: two literals, nothing consumed. -/
def playing : State := State.reset.withStream [0x12, 0x34]

theorem playing_inv : playing.Inv where
  bufferWf := by decide
  bufferBelow := by decide
  streamWf := by decide
  cursorLe := by decide
  idleCursor := by decide
  callPosition := by intro L h; cases h
  fullGround := by decide
  trueGround := by decide

theorem playing_steady : playing.Steady where
  inv := playing_inv
  callLen := by intro L h; cases h
  positionLe := by decide
  idleStart := by decide

/-- For `DecodeFrameCompletes`, `DecodeFrameWritesExactlyItsFrame`, `CallsDoNotReadTheFrameBuffer` (a state beside it that
holds another buffer is the next witness) and `NeverCompletingStreamRepeats`: T7's stream returns false. -/
theorem witness_calls : playing.Steady ∧ playing.call = none ∧ playing.position = 0 ∧ playing.phase = .ground ∧
    (nextState? (exec .decodeFrame playing)).map State.frameComplete = some false :=
  ⟨playing_steady, by decide, by decide, by decide, by decide⟩

/-- V35: a call that returns true, by a run that is exactly a frame. -/
def oneFrame : State := State.reset.withStream [0x55, 0x80, 0x08]

theorem oneFrame_inv : oneFrame.Inv where
  bufferWf := by decide
  bufferBelow := by decide
  streamWf := by decide
  cursorLe := by decide
  idleCursor := by decide
  callPosition := fun L h => nomatch h
  fullGround := by decide
  trueGround := by decide

/-- The clauses for a complete frame of the same statements, and of `PumpCycleRendersCompleteFrames` and
`DecodeFrameExpandsTheStream`. -/
theorem witness_complete_frame : oneFrame.Steady ∧ oneFrame.call = none ∧
    (nextState? (exec .decodeFrame oneFrame)).map (fun t => (t.frameComplete, decoderFields t)) =
      some (true, ⟨3, none, none, 0⟩) :=
  ⟨{ inv := oneFrame_inv, callLen := fun L h => (nomatch h), positionLe := by decide, idleStart := by decide },
    by decide, by decide⟩

theorem witness_CallsDoNotReadTheFrameBuffer :
    ∃ s' : State, s'.Steady ∧ SameButBuffer playing s' ∧ s'.frameByte 0 ≠ playing.frameByte 0 :=
  ⟨{ playing with frameBuffer := [(0, 7)] },
    { inv := { bufferWf := by decide, bufferBelow := by decide, streamWf := by decide, cursorLe := by decide,
               idleCursor := by decide, callPosition := fun L h => (nomatch h), fullGround := by decide,
               trueGround := by decide },
      callLen := fun L h => (nomatch h), positionLe := by decide, idleStart := by decide },
    ⟨⟨rfl, rfl, rfl, rfl, rfl, rfl, rfl, rfl⟩, rfl, rfl, rfl⟩, by decide⟩

/-- The exhausted stream beside the freshly reset Decoder State (R90). -/
theorem witness_PlaybackLoops :
    ∃ s : State, s.Steady ∧ s.call = none ∧ SameElsewhere s playing ∧ s.position = s.streamLen ∧
      playing.Steady ∧ playing.position = 0 ∧ playing.phase = .ground ∧ playing.bytesWritten = 0 :=
  ⟨{ playing with position := 2, phase := .escapeActive .m55, bytesWritten := 3 },
    { inv := { bufferWf := by decide, bufferBelow := by decide, streamWf := by decide, cursorLe := by decide,
               idleCursor := by decide, callPosition := fun L h => (nomatch h), fullGround := by decide,
               trueGround := by decide },
      callLen := fun L h => (nomatch h), positionLe := by decide, idleStart := by decide },
    rfl, ⟨rfl, rfl, rfl, rfl, rfl, rfl, rfl, rfl⟩, rfl, playing_steady, rfl, rfl, rfl⟩

theorem witness_LoopResetRestartsAtZero : let s := idleWith [0x12] 1 (.escapeActive .m55) 3
    s.streamLen.toNat ≤ s.position.toNat := by decide

theorem witness_EmptyStreamReturnsFalse : State.reset.call = none ∧ State.reset.streamLen = 0 := by decide

theorem witness_ResetCommandResult : (idleWith [0x12] 1 (.escapeActive .m55) 3).call = none := by decide

theorem witness_CommandWhileBusyIsRefused : (at4 0 .ground 0).call = some 100 := by decide

theorem witness_EveryLevelOfStepAgrees : let s := { playing with command := some .decodeFrame }
    s.call = none ∧ s.command = some .decodeFrame ∧ s.resetInput = false := by decide

/-- The bytes of T7's stream are those of `LIT 0x12`, `LIT 0x34`. -/
theorem witness_DecodeFrameExpandsTheStream :
    playing.Inv ∧ playing.call = none ∧ playing.phase = .ground ∧ playing.bytesWritten = 0 ∧
    (∀ i ∈ [Instr.lit 0x12, Instr.lit 0x34], i.wf = true ∧ i.level = .sequence) ∧
    playing.streamLen.toNat = playing.position.toNat + (streamOf [.lit 0x12, .lit 0x34]).length ∧
    (∀ k < 2, some (streamRead playing (playing.position.toNat + k)) = (streamOf [.lit 0x12, .lit 0x34])[k]?) :=
  ⟨playing_inv, by decide, by decide, by decide, by decide, by decide, by
    intro k hk
    match k, hk with
    | 0, _ => rfl
    | 1, _ => rfl⟩

/-- The reset input asserted on an idle block and in a call. -/
theorem witness_HardwareResetStep :
    ∀ c ∈ [none, some (9 : Config.PosWord)], ({ State.reset with call := c, resetInput := true } : State).Inv ∧
      ({ State.reset with call := c, resetInput := true } : State).command = none := by
  intro c hc
  exact ⟨⟨by simp [State.reset], by simp [State.reset], by simp [State.reset], by simp [State.reset], by simp [State.reset],
    by simp [State.reset], by simp [State.reset], by simp [State.reset]⟩, rfl⟩

theorem witness_PhaseIsAFunctionOfTheFields : (at4 2 (.runLengthContinuation .mAA 0) 0).partialRunLength ≠ none := by decide

/-- For `StepKeepsInvariant`, `StepKeepsSteadyPlayback` and `HostMovesKeepInvariant`: a step and each host move that answer a
next state from a state of the invariant. -/
theorem witness_invariants :
    (nextState? (step { playing with command := some .decodeFrame })).isSome = true ∧
    (nextState? (hostIssue .decodeFrame playing)).isSome = true ∧
    (nextState? (hostDriveStreamLen 0 playing)).isSome = true ∧
    (nextState? (hostWriteBuffer 1023 0xFF playing)).isSome = true := by decide

/-- The last index of the buffer, written, and the first one past it. -/
theorem witness_IdleReadsShowTheState : let s := { playing with frameBuffer := [(1023, 5)] }
    s.call = none ∧ s.command = none ∧ 1023 < 1024 ∧ s.frameByte 1023 = some 5 ∧ 1024 ≤ 1024 := by decide

theorem witness_PumpCycleRendersCompleteFrames : playing.Inv ∧ playing.call = none ∧ playing.command = none ∧
    playing.resetInput = false ∧ 49999 < 50000 := ⟨playing_inv, by decide, by decide, by decide, by decide⟩

end Sys2Proof.Tests
end

/-! The two invariants (`State.Inv`, `State.Steady`) under each operation that a step or a move of the host is made of. -/

namespace Sys2Proof.Machine

/-! ## The invariant, operation by operation -/

/-- A Decoder State at its start, over canonical memories, is a state of the invariant, whatever the rest of the block. -/
theorem State.Inv.of_restarted {s : State} (hwf : Memory.wf s.frameBuffer) (hbelow : Memory.below s.frameBuffer 1024)
    (hstream : Memory.wf s.stream) (hpos : s.position = 0) (hph : s.phase = .ground) (hbw : s.bytesWritten = 0) :
    s.Inv where
  bufferWf := hwf
  bufferBelow := hbelow
  streamWf := hstream
  cursorLe := by simp [hbw]
  idleCursor _ := by simp [hbw]
  callPosition L _ := by simp [hpos]
  fullGround _ := hph
  trueGround _ _ := ⟨hph, hbw⟩

/-- The invariant does not see what the host drives: the command port, the reset input and `STREAM_LEN`. -/
theorem State.Inv.withInputs {s : State} (hs : s.Inv) (c : Option Command) (r : Bool) (L : Config.PosWord) :
    State.Inv { s with command := c, resetInput := r, streamLen := L } := by
  obtain ⟨h1, h2, h3, h4, h5, h6, h7, h8⟩ := hs
  exact ⟨h1, h2, h3, h4, h5, h6, h7, h8⟩

theorem State.Inv.takeRequest {s : State} (hs : s.Inv) : (takeRequest s).Inv :=
  hs.withInputs none s.resetInput s.streamLen

/-- Acceptance puts the position within the sampled length, by the loop reset where it has to (R81). -/
theorem State.Inv.acceptCall {s : State} (hs : s.Inv) : (acceptCall s).Inv := by
  obtain ⟨hlt, h⟩ | ⟨-, h⟩ := acceptCall_cases s <;> rw [h]
  · exact {
      bufferWf := hs.bufferWf
      bufferBelow := hs.bufferBelow
      streamWf := hs.streamWf
      cursorLe := hs.cursorLe
      idleCursor := nofun
      callPosition := fun L hL => Option.some.inj hL ▸ Nat.le_of_lt hlt
      fullGround := hs.fullGround
      trueGround := nofun }
  · exact .of_restarted hs.bufferWf hs.bufferBelow hs.streamWf rfl rfl rfl

theorem State.Inv.byteStep {s : State} (hs : s.Inv) (hg : guardsHold s = true) : (byteStep s).Inv := by
  obtain ⟨L, hL, hroom, hpos⟩ := guardsHold_iff.mp hg
  obtain ⟨hcall, -, -, -, -, hstream, -, -⟩ := byteStep_same s
  have hbusy : (Machine.byteStep s).call = some L := hcall.trans hL
  exact {
    bufferWf := byteStep_wf hs.bufferWf
    bufferBelow := byteStep_below hs.bufferBelow hs.cursorLe
    streamWf := hstream ▸ hs.streamWf
    cursorLe := byteStep_cursor_le hs.cursorLe
    idleCursor := by simp [hbusy]
    callPosition := fun L' hL' => by
      cases hbusy.symm.trans hL'
      rw [byteStep_position_toNat hpos]
      exact hpos
    fullGround := byteStep_full hroom
    trueGround := by simp [hbusy] }

theorem State.Inv.callLoop {s : State} (hs : s.Inv) (k : Nat) : (callLoop k s).Inv :=
  callLoop_keeps (fun _ hu hg => hu.byteStep hg) k hs

theorem State.Inv.loopExit {s : State} (hs : s.Inv) : (loopExit s).Inv := hs.callLoop _

/-- The end of a call leaves an idle cursor below `FRAME_SIZE`; a true result comes from a full buffer, so in Ground. -/
theorem State.Inv.endCall {s : State} (hs : s.Inv) : (endCall s).Inv := by
  obtain ⟨hfull, h⟩ | ⟨hroom, h⟩ := endCall_cases s <;> rw [h]
  · exact {
      bufferWf := hs.bufferWf
      bufferBelow := hs.bufferBelow
      streamWf := hs.streamWf
      cursorLe := Nat.zero_le _
      idleCursor := fun _ => Nat.zero_lt_succ _
      callPosition := nofun
      fullGround := fun _ => hs.fullGround hfull
      trueGround := fun _ _ => ⟨hs.fullGround hfull, rfl⟩ }
  · exact {
      bufferWf := hs.bufferWf
      bufferBelow := hs.bufferBelow
      streamWf := hs.streamWf
      cursorLe := hs.cursorLe
      idleCursor := fun _ => Nat.lt_of_le_of_ne hs.cursorLe hroom
      callPosition := nofun
      fullGround := hs.fullGround
      trueGround := nofun }

theorem State.Inv.finishCall {s : State} (hs : s.Inv) : (finishCall s).Inv := hs.loopExit.endCall

/-- `RESET` (R92). -/
theorem State.Inv.resetCommand {s : State} (hs : s.Inv) : State.Inv { fullReset s with frameComplete := false } :=
  .of_restarted hs.bufferWf hs.bufferBelow hs.streamWf rfl rfl rfl

theorem State.Inv.underway {s : State} (hs : s.Inv) : (underway s).Inv := by
  unfold Machine.underway
  split
  · exact hs
  · exact hs.takeRequest
  · exact hs.takeRequest.acceptCall

theorem abandonedBuffer_wf {s : State} (hs : s.Inv) : Memory.wf (abandonedBuffer s) :=
  Memory.copy_wf hs.bufferWf _ _ _

/-- The writes of an abandoned call land before the cursor its main loop would reach, so inside the Frame Buffer. -/
theorem abandonedBuffer_below {s : State} (hs : s.Inv) : Memory.below (abandonedBuffer s) 1024 := by
  refine Memory.copy_below hs.bufferBelow _ ?_
  have hstart := hs.cursorLe
  have hend := hs.loopExit.cursorLe
  omega

theorem State.Inv.resetBlock {s : State} (hs : s.Inv) : (resetBlock s).Inv := by
  unfold Machine.resetBlock
  split
  · exact .of_restarted (abandonedBuffer_wf hs) (abandonedBuffer_below hs) hs.streamWf rfl rfl rfl
  · exact hs.resetCommand

theorem State.Inv.hardwareReset {s : State} (hs : s.Inv) : (hardwareReset s).Inv := hs.underway.resetBlock

/-! ## Steady playback, operation by operation -/

theorem State.Steady.takeRequest {s : State} (hs : s.Steady) : (takeRequest s).Steady where
  inv := hs.inv.takeRequest
  callLen := hs.callLen
  positionLe := hs.positionLe
  idleStart := hs.idleStart

/-- A Decoder State at its start is one of steady playback, if a call in progress has sampled `STREAM_LEN`. -/
theorem State.Steady.of_restarted {s : State} (hs : s.Inv) (hlen : ∀ L, s.call = some L → L = s.streamLen)
    (hpos : s.position = 0) (hbw : s.bytesWritten = 0) : s.Steady where
  inv := hs
  callLen := hlen
  positionLe := by simp [hpos]
  idleStart _ := .inl hbw

/-- Acceptance begins a steady call from every state of the invariant, since it samples `STREAM_LEN` anew. -/
theorem acceptCall_steady {s : State} (hs : s.Inv) : (acceptCall s).Steady := by
  obtain ⟨-, hlen, -, -, -, -, -, -, hcall⟩ := acceptCall_same s
  have hsampled : (acceptCall s).call = some (acceptCall s).streamLen := hlen.symm ▸ hcall
  exact {
    inv := hs.acceptCall
    callLen := fun L hL => Option.some.inj (hL.symm.trans hsampled)
    positionLe := hs.acceptCall.callPosition _ hsampled
    idleStart := by simp [hsampled] }

theorem State.Steady.byteStep {s : State} (hs : s.Steady) (hg : guardsHold s = true) : (byteStep s).Steady := by
  obtain ⟨L, hL, -, -⟩ := guardsHold_iff.mp hg
  obtain ⟨hcall, -, hlen, -, -, -, -, -⟩ := byteStep_same s
  have hsampled : (Machine.byteStep s).call = some (Machine.byteStep s).streamLen := by
    rw [hcall, hL, hlen, hs.callLen L hL]
  have hinv : (Machine.byteStep s).Inv := hs.inv.byteStep hg
  exact {
    inv := hinv
    callLen := fun L' hL' => Option.some.inj (hL'.symm.trans hsampled)
    positionLe := hinv.callPosition _ hsampled
    idleStart := by simp [hsampled] }

theorem State.Steady.callLoop {s : State} (hs : s.Steady) (k : Nat) : (callLoop k s).Steady :=
  callLoop_keeps (fun _ hu hg => hu.byteStep hg) k hs

/-- A call in progress with a failed guard and room in the buffer has consumed its stream. -/
theorem State.Steady.exhausted {s : State} (hs : s.Steady) {L : Config.PosWord} (hL : s.call = some L)
    (hg : guardsHold s = false) (hroom : s.bytesWritten.toNat ≠ 1024) : s.position = s.streamLen := by
  have hlt : s.bytesWritten.toNat < 1024 := Nat.lt_of_le_of_ne hs.inv.cursorLe hroom
  have hend : ¬ s.position.toNat < L.toNat := fun hpos =>
    Bool.false_ne_true (hg.symm.trans (guardsHold_iff.mpr ⟨L, hL, hlt, hpos⟩))
  rw [hs.callLen L hL] at hend
  exact BitVec.eq_of_toNat_eq (Nat.le_antisymm hs.positionLe (Nat.le_of_not_lt hend))

/-- A call that ends because a guard fails leaves no partial frame, or an exhausted stream (R21 (e), R87 (a)). -/
theorem State.Steady.endCall {s : State} (hs : s.Steady) {L : Config.PosWord} (hL : s.call = some L)
    (hg : guardsHold s = false) : (endCall s).Steady := by
  have hinv : (Machine.endCall s).Inv := hs.inv.endCall
  obtain ⟨-, h⟩ | ⟨hroom, h⟩ := endCall_cases s <;> rw [h] at hinv ⊢
  · exact ⟨hinv, nofun, hs.positionLe, fun _ => .inl rfl⟩
  · exact ⟨hinv, nofun, hs.positionLe, fun _ => .inr (hs.exhausted hL hg hroom)⟩

theorem State.Steady.finishCall {s : State} (hs : s.Steady) {L : Config.PosWord} (hL : s.call = some L) :
    (finishCall s).Steady :=
  State.Steady.endCall (hs.callLoop _) ((loopExit_call s).trans hL) (loopExit_guards s)

/-- A whole call, from its acceptance to its end, leaves steady playback. -/
theorem finishCall_acceptCall_steady {s : State} (hs : s.Inv) : (finishCall (acceptCall s)).Steady := by
  obtain ⟨-, -, -, -, -, -, -, -, hcall⟩ := acceptCall_same s
  exact (acceptCall_steady hs).finishCall hcall

theorem hardwareReset_steady {s : State} (hs : s.Inv) : (hardwareReset s).Steady := by
  obtain ⟨hpos, -, hbw, hcall, -, -, -⟩ := hardwareReset_fields s
  exact .of_restarted hs.hardwareReset (by simp [hcall]) hpos hbw

/-! ## What the host's moves answer -/

theorem hostIssue_next {c : Command} {s t : State} (h : hostIssue c s = .next t) :
    s.call = none ∧ t = { s with command := some c } := by
  unfold hostIssue at h
  split at h
  · cases h
  · split at h
    · cases h
    · split at h <;> cases h
      exact ⟨by simpa using ‹¬s.busy = true›, rfl⟩

theorem hostDriveStreamLen_next {L : Config.PosWord} {s t : State} (h : hostDriveStreamLen L s = .next t) :
    s.call = none ∧ t = { s with streamLen := L } := by
  unfold hostDriveStreamLen at h
  split at h
  · cases h
  · split at h <;> cases h
    exact ⟨by simpa using ‹¬s.busy = true›, rfl⟩

theorem hostWriteBuffer_next {j : Nat} {v : Byte} {s t : State} (h : hostWriteBuffer j v s = .next t) :
    j < 1024 ∧ s.call = none ∧ t = { s with frameBuffer := Memory.write s.frameBuffer j v } := by
  unfold hostWriteBuffer at h
  split at h
  · cases h
  · split at h
    · cases h
    · split at h <;> cases h
      exact ⟨Nat.lt_of_not_le ‹_›, by simpa using ‹¬s.busy = true›, rfl⟩

/-- The invariant sees of the Frame Buffer only its form and its bound. -/
theorem State.Inv.writeBuffer {s : State} (hs : s.Inv) {j : Nat} (hj : j < 1024) (v : Byte) :
    State.Inv { s with frameBuffer := Memory.write s.frameBuffer j v } where
  bufferWf := Memory.write_wf hs.bufferWf j v
  bufferBelow := Memory.write_below hs.bufferBelow hj v
  streamWf := hs.streamWf
  cursorLe := hs.cursorLe
  idleCursor := hs.idleCursor
  callPosition := hs.callPosition
  fullGround := hs.fullGround
  trueGround := hs.trueGround

theorem State.Inv.hostAssertReset {s : State} (hs : s.Inv) : (hostAssertReset s).Inv :=
  hs.hardwareReset.withInputs (Machine.hardwareReset s).command true (Machine.hardwareReset s).streamLen

theorem State.Inv.hostReleaseReset {s : State} (hs : s.Inv) : (hostReleaseReset s).Inv := by
  unfold Machine.hostReleaseReset
  split
  · exact hs.hardwareReset.withInputs (Machine.hardwareReset s).command false (Machine.hardwareReset s).streamLen
  · exact hs

/-! ## The fields that the phase holds -/

theorem Marker.byte_inj {m m' : Marker} : m.byte = m'.byte ↔ m = m' := by
  constructor
  · intro h
    exact Option.some.inj (by rw [← markerOf_byte m, ← markerOf_byte m', h])
  · rintro rfl
    rfl

/-- The two values of `escape_value` beside none (R17). -/
theorem Marker.byte_cases (m : Marker) : m.byte = 0x55#8 ∨ m.byte = 0xAA#8 := by
  cases m with
  | m55 => exact .inl rfl
  | mAA => exact .inr rfl

/-! ## The statements about the state -/

/-- Settles O49: every case of `step_cases` is made of operations that keep the invariant. -/
theorem stepKeepsInvariant : Obligations.StepKeepsInvariant := by
  intro s t hs hstep
  obtain ⟨-, -, rfl⟩ | ⟨-, -, hidle⟩ | ⟨-, -, -, hcall⟩ := step_cases hstep
  · exact hs.hardwareReset
  · obtain ⟨-, rfl⟩ | ⟨-, rfl⟩ | ⟨-, -, rfl⟩ | ⟨-, -, rfl⟩ := hidle
    · exact hs
    · exact hs.takeRequest.resetCommand
    · exact hs.takeRequest.acceptCall
    · exact hs.takeRequest.acceptCall.finishCall
  · obtain ⟨-, rfl⟩ | ⟨-, k, -, -, -, rfl⟩ | ⟨-, rfl⟩ := hcall
    · exact hs.finishCall
    · exact hs.callLoop k
    · exact hs.endCall

/-- Settles O50: every case of `step_cases` is made of operations that keep steady playback; a call ends only where a
guard has failed. -/
theorem stepKeepsSteadyPlayback : Obligations.StepKeepsSteadyPlayback := by
  intro s t hs hstep
  obtain ⟨-, -, rfl⟩ | ⟨-, hnone, hidle⟩ | ⟨-, -, hbusy, hcall⟩ := step_cases hstep
  · exact hardwareReset_steady hs.inv
  · obtain ⟨-, rfl⟩ | ⟨-, rfl⟩ | ⟨-, -, rfl⟩ | ⟨-, -, rfl⟩ := hidle
    · exact hs
    · exact .of_restarted hs.inv.takeRequest.resetCommand hs.takeRequest.callLen rfl rfl
    · exact acceptCall_steady hs.inv.takeRequest
    · exact finishCall_acceptCall_steady hs.inv.takeRequest
  · obtain ⟨L, hL⟩ := Option.isSome_iff_exists.mp hbusy
    obtain ⟨-, rfl⟩ | ⟨-, k, -, -, -, rfl⟩ | ⟨hg, rfl⟩ := hcall
    · exact hs.finishCall hL
    · exact hs.callLoop k
    · exact hs.endCall hL hg

/-- Settles O32: a step of a call at the level of micro-steps is one guarded byte step or the end of the call. -/
theorem positionAdvancesByOneOrResets : Obligations.PositionAdvancesByOneOrResets := by
  intro s t hmicro hstep
  have hfine : s.grain ≠ .hostCommand := by simp [hmicro]
  obtain ⟨hr, -, rfl⟩ | ⟨-, -, hidle⟩ | ⟨-, -, -, hcall⟩ := step_cases hstep
  · obtain ⟨hpos, -⟩ := hardwareReset_fields s
    exact .inr (.inr ⟨hpos, .inl hr⟩)
  · obtain ⟨-, rfl⟩ | ⟨hcmd, rfl⟩ | ⟨hcmd, -, rfl⟩ | ⟨-, hhost, -⟩ := hidle
    · exact .inl rfl
    · exact .inr (.inr ⟨rfl, .inr (.inl hcmd)⟩)
    · obtain ⟨-, h⟩ | ⟨hend, h⟩ := acceptCall_cases (takeRequest s) <;> rw [h]
      · exact .inl rfl
      · exact .inr (.inr ⟨rfl, .inr (.inr ⟨hcmd, hend⟩)⟩)
    · exact absurd hhost hfine
  · obtain ⟨hhost, -⟩ | ⟨hg, k, -, -, hone, rfl⟩ | ⟨-, rfl⟩ := hcall
    · exact absurd hhost hfine
    · obtain ⟨L, hL, -, hpos⟩ := guardsHold_iff.mp hg
      rw [hone hmicro, callLoop_one hg]
      exact .inr (.inl ⟨byteStep_position_toNat hpos, L, hL, hpos⟩)
    · obtain ⟨-, -, -, -, -, -, -, hpos, -⟩ := endCall_same s
      exact .inl hpos

/-- Settles O33: acceptance and byte steps leave the bit alone; a step of any other kind leaves the block idle. -/
theorem statusBitChangesOnlyAtCompletion : Obligations.StatusBitChangesOnlyAtCompletion := by
  intro s t hstep hchanged
  rw [busy_eq_isSome, Option.isSome_eq_false_iff, Option.isNone_iff_eq_none]
  obtain ⟨hr, -, rfl⟩ | ⟨-, hnone, hidle⟩ | ⟨-, -, hbusy, hcall⟩ := step_cases hstep
  · obtain ⟨-, -, -, hdone, -⟩ := hardwareReset_fields s
    exact ⟨hdone, .inr (.inl hr)⟩
  · obtain ⟨-, rfl⟩ | ⟨hcmd, rfl⟩ | ⟨-, -, rfl⟩ | ⟨hcmd, hhost, rfl⟩ := hidle
    · exact absurd rfl hchanged
    · exact ⟨hnone, .inr (.inr (.inl hcmd))⟩
    · obtain ⟨-, -, -, -, -, -, -, hsame, -⟩ := acceptCall_same (takeRequest s)
      exact absurd hsame hchanged
    · obtain ⟨-, -, -, -, -, -, hdone⟩ := finishCall_same (acceptCall (takeRequest s))
      exact ⟨hdone, .inr (.inr (.inr ⟨hcmd, hhost⟩))⟩
  · obtain ⟨-, rfl⟩ | ⟨-, k, -, -, -, rfl⟩ | ⟨-, rfl⟩ := hcall
    · obtain ⟨-, -, -, -, -, -, hdone⟩ := finishCall_same s
      exact ⟨hdone, .inl hbusy⟩
    · obtain ⟨-, hsame, -⟩ := callLoop_same k s
      exact absurd hsame hchanged
    · obtain ⟨-, -, -, -, -, -, -, -, -, hdone⟩ := endCall_same s
      exact ⟨hdone, .inl hbusy⟩

/-- Settles O51: each move drives an input, writes one byte inside the Frame Buffer, or is a hardware reset. -/
theorem hostMovesKeepInvariant : Obligations.HostMovesKeepInvariant := by
  intro s t hs
  refine ⟨fun c h => ?_, fun L h => ?_, fun j v h => ?_, hs.hostAssertReset, hs.hostReleaseReset⟩
  · obtain ⟨-, rfl⟩ := hostIssue_next h
    exact hs.withInputs (some c) s.resetInput s.streamLen
  · obtain ⟨-, rfl⟩ := hostDriveStreamLen_next h
    exact hs.withInputs s.command s.resetInput L
  · obtain ⟨hj, -, rfl⟩ := hostWriteBuffer_next h
    exact hs.writeBuffer hj v

/-- Settles O45: each field by its definition. -/
theorem resetValues : Obligations.ResetValues := ⟨rfl, rfl, rfl, rfl, rfl, rfl, rfl⟩

/-- Settles O47: phase by phase, and a marker is known by its byte. -/
theorem phaseIsAFunctionOfTheFields : Obligations.PhaseIsAFunctionOfTheFields := by
  intro s
  cases hph : s.phase with
  | ground => simp [State.escapeValue, State.partialRunLength, phaseOfFields, hph]
  | escapeActive m =>
    simp [State.escapeValue, State.partialRunLength, phaseOfFields, hph, Marker.byte_inj, Marker.byte_cases m]
  | runLengthContinuation m p =>
    simp [State.escapeValue, State.partialRunLength, phaseOfFields, hph, Marker.byte_inj, Marker.byte_cases m]

/-- Settles O48: the state after reset is a restarted Decoder State over empty memories. -/
theorem invariantAtReset : Obligations.InvariantAtReset := by
  have hinv : State.reset.Inv := .of_restarted .nil nofun .nil rfl rfl rfl
  exact ⟨hinv, .of_restarted hinv nofun rfl rfl⟩

/-- Settles O52: with no call and no request each read takes its last branch. -/
theorem idleReadsShowTheState : Obligations.IdleReadsShowTheState := by
  intro s hcall hcmd
  refine ⟨?_, ?_, ?_, fun j b hj hb => ?_, fun j hj => if_pos hj⟩
  · simp [hostReadBusy, hcall, hcmd]
  · simp [hostReadFrameComplete, hcall, hcmd]
  · simp [hostObserve, hcall, hcmd]
  · simp [hostReadBuffer, State.frameByteSeen, hcall, hcmd, hb, Nat.not_le.mpr hj]

end Sys2Proof.Machine

/-! 20_memory.md: the stream is never written, and the Frame Buffer is never read. Two runs that differ in the Frame Buffer
only make the same byte steps, so they differ in the Frame Buffer only and write the same bytes below the cursor. -/

namespace Sys2Proof.Machine

/-! ## States that differ in the Frame Buffer only -/

theorem sameButBuffer_withBuffer (s : State) (b : Memory) : SameButBuffer s { s with frameBuffer := b } :=
  ⟨⟨rfl, rfl, rfl, rfl, rfl, rfl, rfl, rfl⟩, rfl, rfl, rfl⟩

theorem SameButBuffer.exists_eq {s s' : State} (h : SameButBuffer s s') : ∃ b, s' = { s with frameBuffer := b } := by
  obtain ⟨⟨hcall, hdone, hlen, hcmd, hreset, hstream, hdraws, hgrain⟩, hpos, hph, hbw⟩ := h
  cases s'
  subst hcall hdone hlen hcmd hreset hstream hdraws hgrain hpos hph hbw
  exact ⟨_, rfl⟩

theorem SameButBuffer.idle {s s' : State} (h : SameButBuffer s s') (hidle : s.call = none) : s'.call = none := by
  obtain ⟨⟨hcall, -⟩, -⟩ := h
  exact hcall.trans hidle

theorem SameButBuffer.guardsHold {s s' : State} (h : SameButBuffer s s') :
    Machine.guardsHold s' = Machine.guardsHold s := by
  obtain ⟨b, rfl⟩ := h.exists_eq
  rfl

theorem SameButBuffer.remaining {s s' : State} (h : SameButBuffer s s') :
    Machine.remaining s' = Machine.remaining s := by
  obtain ⟨b, rfl⟩ := h.exists_eq
  rfl

theorem SameButBuffer.advance {s s' : State} (h : SameButBuffer s s') (k : Nat) :
    SameButBuffer (Machine.advance k s) (Machine.advance k s') := by
  obtain ⟨b, rfl⟩ := h.exists_eq
  exact sameButBuffer_withBuffer _ b

theorem SameButBuffer.setPhase {s s' : State} (h : SameButBuffer s s') (ph : Phase) :
    SameButBuffer (Machine.setPhase ph s) (Machine.setPhase ph s') := by
  obtain ⟨b, rfl⟩ := h.exists_eq
  exact sameButBuffer_withBuffer _ b

/-- An emission moves the cursor by what the cursor alone says. -/
theorem SameButBuffer.emit {s s' : State} (h : SameButBuffer s s') (n : Nat) (v : Byte) :
    SameButBuffer (Machine.emit n v s) (Machine.emit n v s') := by
  obtain ⟨b, rfl⟩ := h.exists_eq
  exact sameButBuffer_withBuffer _ (Memory.fill b _ _ v)

theorem SameButBuffer.acceptCall {s s' : State} (h : SameButBuffer s s') :
    SameButBuffer (Machine.acceptCall s) (Machine.acceptCall s') := by
  obtain ⟨b, rfl⟩ := h.exists_eq
  unfold Machine.acceptCall
  dsimp only
  split <;> exact sameButBuffer_withBuffer _ b

theorem SameButBuffer.endCall {s s' : State} (h : SameButBuffer s s') :
    SameButBuffer (Machine.endCall s) (Machine.endCall s') := by
  obtain ⟨b, rfl⟩ := h.exists_eq
  unfold Machine.endCall
  dsimp only
  split <;> exact sameButBuffer_withBuffer _ b

/-- The byte step is chosen by the phase and the stream byte, so both states make the same one (`byteStep_cases`). -/
theorem SameButBuffer.byteStep_cases {s s' : State} (h : SameButBuffer s s') :
    (∃ n v, byteStep s = Machine.setPhase .ground (Machine.emit n v (Machine.advance 1 s)) ∧
      byteStep s' = Machine.setPhase .ground (Machine.emit n v (Machine.advance 1 s'))) ∨
    (∃ ph, byteStep s = Machine.setPhase ph (Machine.advance 1 s) ∧
      byteStep s' = Machine.setPhase ph (Machine.advance 1 s')) := by
  obtain ⟨⟨-, -, -, -, -, hstream, -, -⟩, hpos, hph', -⟩ := h
  have hbyte : streamRead s' s'.position.toNat = streamRead s s.position.toNat := by
    rw [hpos, streamRead_same hstream]
  unfold byteStep
  rw [hbyte, hph']
  cases hph : s.phase with
  | ground =>
    dsimp only
    split
    · exact .inr ⟨_, rfl, rfl⟩
    · exact .inl ⟨1, _, (ground_emit hph 1 1 _).symm, (ground_emit (hph'.trans hph) 1 1 _).symm⟩
  | escapeActive m =>
    dsimp only
    split
    · exact .inl ⟨_, _, rfl, rfl⟩
    · split
      · exact .inl ⟨_, _, rfl, rfl⟩
      · exact .inr ⟨_, rfl, rfl⟩
  | runLengthContinuation m p => exact .inl ⟨_, _, rfl, rfl⟩

/-! ## Two runs of one call -/

/-- Two runs of one call: they differ in the Frame Buffer only, and there not below the cursor. -/
structure SameBelowCursor (s s' : State) : Prop where
  /-- They differ in the Frame Buffer only. -/
  same : SameButBuffer s s'
  /-- The Frame Buffer of the first is in canonical form. -/
  wf : Memory.wf s.frameBuffer
  /-- The Frame Buffer of the second is in canonical form. -/
  wf' : Memory.wf s'.frameBuffer
  /-- The bytes that the cursor has passed are the same. -/
  bytes : ∀ a < s.bytesWritten.toNat, s.frameByte a = s'.frameByte a

theorem SameBelowCursor.advance {s s' : State} (h : SameBelowCursor s s') (k : Nat) :
    SameBelowCursor (Machine.advance k s) (Machine.advance k s') :=
  ⟨h.same.advance k, h.wf, h.wf', h.bytes⟩

theorem SameBelowCursor.setPhase {s s' : State} (h : SameBelowCursor s s') (ph : Phase) :
    SameBelowCursor (Machine.setPhase ph s) (Machine.setPhase ph s') :=
  ⟨h.same.setPhase ph, h.wf, h.wf', h.bytes⟩

/-- The bytes that the cursor passes in an emission are the emitted ones in both runs. -/
theorem SameBelowCursor.emit {s s' : State} (h : SameBelowCursor s s') (n : Nat) (v : Byte) :
    SameBelowCursor (Machine.emit n v s) (Machine.emit n v s') where
  same := h.same.emit n v
  wf := emit_wf n v h.wf
  wf' := emit_wf n v h.wf'
  bytes a ha := by
    obtain ⟨-, -, -, hbw⟩ := h.same
    rw [emit_cursor] at ha
    rw [emit_frameByte n v h.wf, emit_frameByte n v h.wf', hbw]
    split
    · rfl
    · exact h.bytes a (by omega)

theorem SameBelowCursor.byteStep {s s' : State} (h : SameBelowCursor s s') :
    SameBelowCursor (Machine.byteStep s) (Machine.byteStep s') := by
  obtain ⟨n, v, hs, hs'⟩ | ⟨ph, hs, hs'⟩ := h.same.byteStep_cases <;> rw [hs, hs']
  · exact ((h.advance 1).emit n v).setPhase .ground
  · exact (h.advance 1).setPhase ph

theorem SameBelowCursor.callLoop {s s' : State} (h : SameBelowCursor s s') (fuel : Nat) :
    SameBelowCursor (Machine.callLoop fuel s) (Machine.callLoop fuel s') := by
  induction fuel generalizing s s' with
  | zero => exact h
  | succ fuel ih =>
    simp only [Machine.callLoop, h.same.guardsHold]
    split
    · exact ih h.byteStep
    · exact h

theorem SameBelowCursor.loopExit {s s' : State} (h : SameBelowCursor s s') :
    SameBelowCursor (Machine.loopExit s) (Machine.loopExit s') := by
  unfold Machine.loopExit
  rw [h.same.remaining]
  exact h.callLoop _

/-- What two calls answer: states that differ in the Frame Buffer only, and in no byte of it if a frame is complete. -/
def SameAnswer (t t' : State) : Prop :=
  SameButBuffer t t' ∧ (t.frameComplete = true → ∀ a < 1024, t.frameByte a = t'.frameByte a)

/-- A call returns true with the cursor past the whole Frame Buffer. -/
theorem SameBelowCursor.endCall {s s' : State} (h : SameBelowCursor s s') :
    SameAnswer (Machine.endCall s) (Machine.endCall s') := by
  refine ⟨h.same.endCall, fun hdone a ha => ?_⟩
  obtain ⟨-, -, -, -, -, -, hbuf, -⟩ := endCall_same s
  obtain ⟨-, -, -, -, -, -, hbuf', -⟩ := endCall_same s'
  rw [frameByte_eq_read, frameByte_eq_read, hbuf, hbuf']
  obtain ⟨hfull, -⟩ | ⟨-, hend⟩ := endCall_cases s
  · exact h.bytes a (by omega)
  · rw [hend] at hdone
    cases hdone

theorem SameBelowCursor.finishCall {s s' : State} (h : SameBelowCursor s s') :
    SameAnswer (Machine.finishCall s) (Machine.finishCall s') := h.loopExit.endCall

/-! ## Whole calls -/

/-- Every call of steady playback begins a frame: an idle block without a partial frame has cursor 0, any other has
exhausted the stream and makes the loop reset (R81, R87 (a)). -/
theorem acceptCall_bytesWritten_of_steady {s : State} (hs : s.Steady) (hidle : s.call = none) :
    (acceptCall s).bytesWritten = 0 := by
  obtain ⟨hlt, h⟩ | ⟨-, h⟩ := acceptCall_cases s <;> rw [h]
  · obtain hzero | hend := hs.idleStart hidle
    · exact hzero
    · rw [hend] at hlt
      exact absurd hlt (Nat.lt_irrefl _)
  · rfl

theorem acceptCall_sameBelowCursor {s s' : State} (hs : s.Steady) (hs' : s'.Steady) (hidle : s.call = none)
    (h : SameButBuffer s s') : SameBelowCursor (acceptCall s) (acceptCall s') where
  same := h.acceptCall
  wf := hs.inv.acceptCall.bufferWf
  wf' := hs'.inv.acceptCall.bufferWf
  bytes a ha := by simp [acceptCall_bytesWritten_of_steady hs hidle] at ha

/-- A first call of an idle block, and then the others. -/
theorem runCalls_succ_idle {s : State} (hidle : s.call = none) (n : Nat) :
    runCalls (n + 1) s = runCalls n (finishCall (acceptCall s)) := by
  simp only [runCalls, exec, execDecodeFrame_idle hidle, andThen]

/-- Each call leaves steady playback and an idle block, from which the next one begins. -/
theorem runCalls_succ_sameAnswer (n : Nat) {s s' : State} (hs : s.Steady) (hs' : s'.Steady) (hidle : s.call = none)
    (h : SameButBuffer s s') :
    ∃ t t', runCalls (n + 1) s = .next t ∧ runCalls (n + 1) s' = .next t' ∧ SameAnswer t t' := by
  induction n generalizing s s' with
  | zero =>
    rw [runCalls_succ_idle hidle, runCalls_succ_idle (h.idle hidle)]
    exact ⟨_, _, rfl, rfl, (acceptCall_sameBelowCursor hs hs' hidle h).finishCall⟩
  | succ n ih =>
    rw [runCalls_succ_idle hidle, runCalls_succ_idle (h.idle hidle)]
    obtain ⟨-, -, -, -, -, -, hdone⟩ := finishCall_same (acceptCall s)
    obtain ⟨hsame, -⟩ := (acceptCall_sameBelowCursor hs hs' hidle h).finishCall
    exact ih (finishCall_acceptCall_steady hs.inv) (finishCall_acceptCall_steady hs'.inv) hdone hsame

/-! ## The statements -/

/-- Settles O31: every case of `step_cases` is made of operations that leave both alone. -/
theorem streamIsNeverWritten : Obligations.StreamIsNeverWritten := by
  intro s t hstep
  obtain ⟨-, -, rfl⟩ | ⟨-, -, hidle⟩ | ⟨-, -, -, hcall⟩ := step_cases hstep
  · obtain ⟨-, -, -, -, -, hstream, hlen⟩ := hardwareReset_fields s
    exact ⟨hstream, hlen⟩
  · obtain ⟨haccept, hacceptLen, -⟩ := acceptCall_same (takeRequest s)
    obtain ⟨-, rfl⟩ | ⟨-, rfl⟩ | ⟨-, -, rfl⟩ | ⟨-, -, rfl⟩ := hidle
    · exact ⟨rfl, rfl⟩
    · exact ⟨rfl, rfl⟩
    · exact ⟨haccept, hacceptLen⟩
    · obtain ⟨hstream, hlen, -⟩ := finishCall_same (acceptCall (takeRequest s))
      exact ⟨hstream.trans haccept, hlen.trans hacceptLen⟩
  · obtain ⟨-, rfl⟩ | ⟨-, k, -, -, -, rfl⟩ | ⟨-, rfl⟩ := hcall
    · obtain ⟨hstream, hlen, -⟩ := finishCall_same s
      exact ⟨hstream, hlen⟩
    · obtain ⟨-, -, hlen, -, -, hstream, -⟩ := callLoop_same k s
      exact ⟨hstream, hlen⟩
    · obtain ⟨hstream, hlen, -⟩ := endCall_same s
      exact ⟨hstream, hlen⟩

/-- Settles O42: both runs make the same byte steps from cursor 0 in every call (`runCalls_succ_sameAnswer`). -/
theorem callsDoNotReadTheFrameBuffer : Obligations.CallsDoNotReadTheFrameBuffer := by
  intro n s s' hs hs' hidle h
  cases n with
  | zero => exact ⟨s, s', rfl, rfl, h, nofun⟩
  | succ n =>
    obtain ⟨t, t', ht, ht', hsame, hframe⟩ := runCalls_succ_sameAnswer n hs hs' hidle h
    exact ⟨t, t', ht, ht', hsame, fun _ => hframe⟩

end Sys2Proof.Machine

/-! 30_encoding.md: the byte classification, the sequence decoder and the encoder, each equation said once, and the two
round trips. -/

namespace Sys2Proof

/-! ## The byte classification, case by case -/

theorem highBit_eq_true_iff (c : Byte) : highBit c = true ↔ 128 ≤ c.toNat := by
  rw [← Bool.not_eq_false, highBit_eq_false_iff, Nat.not_lt]

/-- A literal's byte is no marker: what well-formedness of a literal says (R51). -/
theorem markerOf_eq_none_of_lit_wf {v : Byte} (h : (Instr.lit v).wf = true) : markerOf v = none :=
  (markerOf_eq_none_iff v).mpr (by simpa [Instr.wf] using h)

theorem lit_wf_of_markerOf {v : Byte} (h : markerOf v = none) : (Instr.lit v).wf = true := by
  simpa [Instr.wf] using (markerOf_eq_none_iff v).mp h

theorem decodeByte_ground_marker (m : Marker) : decodeByte .ground m.byte = gEscOf m := by
  simp only [decodeByte, markerOf_byte]

theorem decodeByte_ground_lit {c : Byte} (h : markerOf c = none) : decodeByte .ground c = .gLit c := by
  simp only [decodeByte, h]

theorem decodeByte_escapeActive_zero (m : Marker) : decodeByte (.escapeActive m) 0x00#8 = .eLitm := rfl

theorem decodeByte_escapeActive_low (m : Marker) {c : Byte} (hz : c ≠ 0x00#8) (hb : highBit c = false) :
    decodeByte (.escapeActive m) c = .eRuns (low7 c) := by
  simp only [decodeByte, if_neg hz, if_pos hb]

theorem ne_zero_of_highBit {c : Byte} (h : highBit c = true) : c ≠ 0x00#8 := by
  rintro rfl
  exact absurd h (by decide)

theorem decodeByte_escapeActive_high (m : Marker) {c : Byte} (hb : highBit c = true) :
    decodeByte (.escapeActive m) c = .eRunlo (low7 c) := by
  simp only [decodeByte, if_neg (ne_zero_of_highBit hb), hb, Bool.true_eq_false, if_false]

theorem decodeByte_continuation (m : Marker) (p : BitVec 7) (c : Byte) :
    decodeByte (.runLengthContinuation m p) c = .cRunhi c := rfl

/-- What the phase remembers does not select the micro-step. -/
theorem decodeByte_of_name_eq {ph ph' : Phase} (h : ph'.name = ph.name) (c : Byte) :
    decodeByte ph' c = decodeByte ph c := by
  cases ph with
  | ground => cases ph' with
    | ground => rfl
    | escapeActive _ | runLengthContinuation _ _ => cases h
  | escapeActive _ => cases ph' with
    | escapeActive _ => rfl
    | ground | runLengthContinuation _ _ => cases h
  | runLengthContinuation _ _ => cases ph' with
    | runLengthContinuation _ _ => rfl
    | ground | escapeActive _ => cases h

/-- Every micro-step that a byte can be, one for each row of the table (R51, R52, R55). -/
theorem decodeByte_cases (ph : Phase) (c : Byte) :
    (ph = .ground ∧ ∃ m, c = Marker.byte m ∧ decodeByte ph c = gEscOf m) ∨
    (ph = .ground ∧ markerOf c = none ∧ decodeByte ph c = .gLit c) ∨
    (∃ m, ph = .escapeActive m ∧ c = 0x00#8 ∧ decodeByte ph c = .eLitm) ∨
    (∃ m, ph = .escapeActive m ∧ c ≠ 0x00#8 ∧ highBit c = false ∧ decodeByte ph c = .eRuns (low7 c)) ∨
    (∃ m, ph = .escapeActive m ∧ highBit c = true ∧ decodeByte ph c = .eRunlo (low7 c)) ∨
    (∃ m p, ph = .runLengthContinuation m p ∧ decodeByte ph c = .cRunhi c) := by
  cases ph with
  | ground =>
    cases hm : markerOf c with
    | none => exact .inr (.inl ⟨rfl, rfl, decodeByte_ground_lit hm⟩)
    | some m =>
      obtain rfl := byte_of_markerOf hm
      exact .inl ⟨rfl, m, rfl, decodeByte_ground_marker m⟩
  | escapeActive m =>
    by_cases hz : c = 0x00#8
    · subst hz
      exact .inr (.inr (.inl ⟨m, rfl, rfl, rfl⟩))
    · cases hb : highBit c with
      | false => exact .inr (.inr (.inr (.inl ⟨m, rfl, hz, rfl, decodeByte_escapeActive_low m hz hb⟩)))
      | true => exact .inr (.inr (.inr (.inr (.inl ⟨m, rfl, rfl, decodeByte_escapeActive_high m hb⟩))))
  | runLengthContinuation m p => exact .inr (.inr (.inr (.inr (.inr ⟨m, p, rfl, rfl⟩))))

/-! ## The forms of a sequence, by marker -/

@[simp] theorem encode_gEscOf (m : Marker) : encode (gEscOf m) = [m.byte] := by cases m <;> rfl
@[simp] theorem encode_escLitOf (m : Marker) : encode (escLitOf m) = [m.byte, 0x00#8] := by cases m <;> rfl
@[simp] theorem encode_runsOf (m : Marker) (n : BitVec 7) : encode (runsOf m n) = [m.byte, shortByte n] := by
  cases m <;> rfl
@[simp] theorem encode_runlOf (m : Marker) (l : BitVec 7) (h : Byte) :
    encode (runlOf m l h) = [m.byte, longByte l, h] := by
  cases m <;> rfl

/-- Every well-formed sequence is of one of the four forms of R50. -/
theorem sequence_cases {i : Instr} (hwf : i.wf = true) (hlevel : i.level = .sequence) :
    (∃ v, i = .lit v ∧ markerOf v = none) ∨
    ∃ m, i = escLitOf m ∨ (∃ n, i = runsOf m n ∧ n ≠ 0#7) ∨ ∃ l h, i = runlOf m l h := by
  cases i with
  | lit v => exact .inl ⟨v, rfl, markerOf_eq_none_of_lit_wf hwf⟩
  | escLit55 => exact .inr ⟨.m55, .inl rfl⟩
  | runs55 n => exact .inr ⟨.m55, .inr (.inl ⟨n, rfl, by simpa [Instr.wf] using hwf⟩)⟩
  | runl55 l h => exact .inr ⟨.m55, .inr (.inr ⟨l, h, rfl⟩)⟩
  | escLitAA => exact .inr ⟨.mAA, .inl rfl⟩
  | runsAA n => exact .inr ⟨.mAA, .inr (.inl ⟨n, rfl, by simpa [Instr.wf] using hwf⟩)⟩
  | runlAA l h => exact .inr ⟨.mAA, .inr (.inr ⟨l, h, rfl⟩)⟩
  | gLit _ | gEsc55 | gEscAA | eLitm | eRuns _ | eRunlo _ | cRunhi _ | decodeFrame | reset => cases hlevel

theorem gEscOf_wf_level (m : Marker) : (gEscOf m).wf = true ∧ (gEscOf m).level = .microStep := by
  cases m <;> exact ⟨rfl, rfl⟩

theorem escLitOf_wf_level (m : Marker) : (escLitOf m).wf = true ∧ (escLitOf m).level = .sequence := by
  cases m <;> exact ⟨rfl, rfl⟩

theorem runsOf_wf_level (m : Marker) {n : BitVec 7} (h : n ≠ 0#7) :
    (runsOf m n).wf = true ∧ (runsOf m n).level = .sequence := by
  cases m <;> exact ⟨by simpa [runsOf, Instr.wf] using h, rfl⟩

theorem runlOf_wf_level (m : Marker) (l : BitVec 7) (h : Byte) :
    (runlOf m l h).wf = true ∧ (runlOf m l h).level = .sequence := by
  cases m <;> exact ⟨rfl, rfl⟩

/-! ## The sequence decoder, form by form (R50, R56) -/

theorem decodeSequence_lit {b0 : Byte} (h : markerOf b0 = none) (rest : List Byte) :
    decodeSequence (b0 :: rest) = .ok (.lit b0) rest := by
  simp only [decodeSequence, h]

theorem decodeSequence_escLit (m : Marker) (rest : List Byte) :
    decodeSequence (m.byte :: 0x00#8 :: rest) = .ok (escLitOf m) rest := by
  simp only [decodeSequence, markerOf_byte, if_true]

theorem decodeSequence_runs (m : Marker) {b1 : Byte} (hz : b1 ≠ 0x00#8) (hb : highBit b1 = false) (rest : List Byte) :
    decodeSequence (m.byte :: b1 :: rest) = .ok (runsOf m (low7 b1)) rest := by
  simp only [decodeSequence, markerOf_byte, if_neg hz, hb, if_true]

theorem decodeSequence_runl (m : Marker) {b1 : Byte} (hb : highBit b1 = true) (b2 : Byte) (rest : List Byte) :
    decodeSequence (m.byte :: b1 :: b2 :: rest) = .ok (runlOf m (low7 b1) b2) rest := by
  simp only [decodeSequence, markerOf_byte, if_neg (ne_zero_of_highBit hb), hb, Bool.true_eq_false, if_false]

/-! ## The statements about the decoder and the encoder -/

/-- One phase suffices: every phase of its name decodes the byte alike. -/
theorem exists_byte_of_decodeByte {i : Instr} {c : Byte} (ph : Phase) (he : encode i = [c])
    (hd : decodeByte ph c = i) :
    ∃ c, encode i = [c] ∧ ∃ ph, decodeByte ph c = i ∧ ∀ ph', ph'.name = ph.name → decodeByte ph' c = i :=
  ⟨c, he, ph, hd, fun _ hname => (decodeByte_of_name_eq hname c).trans hd⟩

/-- Settles O3: row by row, each encoding is classified as its row in the phase of that row. -/
theorem microStepRoundTrip : Obligations.MicroStepRoundTrip := by
  intro i hwf hlevel
  cases i with
  | gLit v => exact exists_byte_of_decodeByte .ground rfl (decodeByte_ground_lit (markerOf_eq_none_of_lit_wf hwf))
  | gEsc55 => exact exists_byte_of_decodeByte .ground rfl (decodeByte_ground_marker .m55)
  | gEscAA => exact exists_byte_of_decodeByte .ground rfl (decodeByte_ground_marker .mAA)
  | eLitm => exact exists_byte_of_decodeByte (.escapeActive .m55) rfl (decodeByte_escapeActive_zero .m55)
  | eRuns n =>
    have hn : shortByte n ≠ 0x00#8 := by simpa [Instr.wf] using hwf
    refine exists_byte_of_decodeByte (.escapeActive .m55) rfl ?_
    rw [decodeByte_escapeActive_low .m55 hn (highBit_shortByte n), low7_shortByte]
  | eRunlo l =>
    refine exists_byte_of_decodeByte (.escapeActive .m55) rfl ?_
    rw [decodeByte_escapeActive_high .m55 (highBit_longByte l), low7_longByte]
  | cRunhi h => exact exists_byte_of_decodeByte (.runLengthContinuation .m55 0) rfl (decodeByte_continuation .m55 0 h)
  | lit _ | escLit55 | runs55 _ | runl55 _ _ | escLitAA | runsAA _ | runlAA _ _ | decodeFrame | reset => cases hlevel

/-- Settles O4: each of the four well-formed forms is read back by its decoder equation. -/
theorem sequenceRoundTrip : Obligations.SequenceRoundTrip := by
  intro i rest hwf hlevel
  obtain ⟨v, rfl, hv⟩ | ⟨m, rfl | ⟨n, rfl, hn⟩ | ⟨l, h, rfl⟩⟩ := sequence_cases hwf hlevel
  · exact decodeSequence_lit hv rest
  · rw [encode_escLitOf]
    exact decodeSequence_escLit m rest
  · have hz : shortByte n ≠ 0x00#8 := by simpa using hn
    rw [encode_runsOf]
    simpa using decodeSequence_runs m hz (highBit_shortByte n) rest
  · rw [encode_runlOf]
    simpa using decodeSequence_runl m (highBit_longByte l) h rest

/-- Settles O2: by the six classifications of `decodeByte_cases`; the seven low bits and bit 7 give the byte back. -/
theorem everyByteHasOneMeaning : Obligations.EveryByteHasOneMeaning := by
  intro ph c
  obtain ⟨-, m, rfl, hd⟩ | ⟨-, hv, hd⟩ | ⟨m, -, rfl, hd⟩ | ⟨m, -, hz, hb, hd⟩ | ⟨m, -, hb, hd⟩ | ⟨m, p, -, hd⟩ :=
    decodeByte_cases ph c <;> rw [hd]
  · obtain ⟨hwf, hlevel⟩ := gEscOf_wf_level m
    exact ⟨hwf, hlevel, encode_gEscOf m⟩
  · exact ⟨lit_wf_of_markerOf hv, rfl, rfl⟩
  · exact ⟨rfl, rfl, rfl⟩
  · have hn : low7 c ≠ 0#7 := fun h => hz (low7_eq_zero_of_low c hb h)
    exact ⟨by simpa [Instr.wf] using hn, rfl, by rw [encode, shortByte_low7 c hb]⟩
  · exact ⟨rfl, rfl, by rw [encode, longByte_low7 c hb]⟩
  · exact ⟨rfl, rfl, rfl⟩

/-- Settles O5: by the four successful answers of `decodeSequence_cases`. -/
theorem decodedSequenceEncodesBack : Obligations.DecodedSequenceEncodesBack := by
  intro bs i rest hd
  obtain ⟨b0, rfl, hv, rfl⟩ | ⟨m, ⟨rfl, rfl⟩ | ⟨b1, rfl, hz, hb, rfl⟩ | ⟨b1, b2, rfl, -, hb, rfl⟩⟩ :=
    decodeSequence_cases hd
  · exact ⟨lit_wf_of_markerOf hv, rfl, rfl⟩
  · obtain ⟨hwf, hlevel⟩ := escLitOf_wf_level m
    exact ⟨hwf, hlevel, by rw [encode_escLitOf]; rfl⟩
  · have hn : low7 b1 ≠ 0#7 := fun h => hz (low7_eq_zero_of_low b1 hb h)
    obtain ⟨hwf, hlevel⟩ := runsOf_wf_level m hn
    exact ⟨hwf, hlevel, by rw [encode_runsOf, shortByte_low7 b1 hb]; rfl⟩
  · obtain ⟨hwf, hlevel⟩ := runlOf_wf_level m (low7 b1) b2
    exact ⟨hwf, hlevel, by rw [encode_runlOf, longByte_low7 b1 hb]; rfl⟩

/-- Settles O1: the tests of R51 and R52 read as bounds on the byte. -/
theorem byteClassification : Obligations.ByteClassification := by
  intro c
  refine ⟨?_, ?_, fun h0 h1 => ?_, ?_, fun m hpos hle => ?_, fun m hge => ?_, fun m p => decodeByte_continuation m p c⟩
  · rintro rfl
    exact decodeByte_ground_marker .m55
  · rintro rfl
    exact decodeByte_ground_marker .mAA
  · exact decodeByte_ground_lit ((markerOf_eq_none_iff c).mpr ⟨h0, h1⟩)
  · rintro m rfl
    exact decodeByte_escapeActive_zero m
  · have hb : highBit c = false := (highBit_eq_false_iff c).mpr (by omega)
    have hz : c ≠ 0x00#8 := by
      rintro rfl
      exact absurd hpos (by decide)
    exact ⟨low7 c, decodeByte_escapeActive_low m hz hb, low7_toNat_of_low c hb⟩
  · have hb : highBit c = true := (highBit_eq_true_iff c).mpr hge
    exact ⟨low7 c, decodeByte_escapeActive_high m hb, low7_toNat_of_high c hb⟩

theorem exists_byte_eq {b : Byte} (h : b = 0x55#8 ∨ b = 0xAA#8) : ∃ m : Marker, b = m.byte :=
  h.elim (fun h => ⟨.m55, h⟩) (fun h => ⟨.mAA, h⟩)

/-- Settles O6: the first byte tells the one-byte form, bit 7 of the second the other two lengths. -/
theorem sequenceLengthByteByByte : Obligations.SequenceLengthByteByByte := by
  intro b0 b1 b2 rest
  refine ⟨fun h0 h1 => ⟨_, decodeSequence_lit ((markerOf_eq_none_iff b0).mpr ⟨h0, h1⟩) _⟩, fun hmark => ?_⟩
  obtain ⟨m, rfl⟩ := exists_byte_eq hmark
  refine ⟨fun hlow => ?_, fun hhigh => ⟨_, decodeSequence_runl m ((highBit_eq_true_iff b1).mpr hhigh) b2 rest⟩⟩
  by_cases hz : b1 = 0x00#8
  · subst hz
    exact ⟨_, decodeSequence_escLit m _⟩
  · exact ⟨_, decodeSequence_runs m hz ((highBit_eq_false_iff b1).mpr hlow) _⟩

/-- Settles O8: five closed words, each by running the decoder. -/
theorem tableWordsDecode : Obligations.TableWordsDecode := ⟨rfl, rfl, rfl, rfl, rfl⟩

end Sys2Proof

/-! The opcode table (30_encoding.md section 7): which bytes each pattern matches, and that the row of lowest priority number
among the matching ones is the row of the decoder's answer. -/

namespace Sys2Proof

/-! ## Patterns, byte by byte -/

/-- A number under a mask, its last byte apart. -/
theorem and_concat_byte (a k : Nat) (b : Byte) :
    (a * 256 + b.toNat) &&& k = (a &&& k / 256) * 256 + (b.toNat &&& k % 256) := by
  have hb : b.toNat < 2 ^ 8 := b.isLt
  have hk : k % 2 ^ 8 < 2 ^ 8 := Nat.mod_lt k (by decide)
  have hand : b.toNat &&& k % 2 ^ 8 < 2 ^ 8 := Nat.and_lt_two_pow _ hk
  have hsplit : k = 2 ^ 8 * (k / 2 ^ 8) + k % 2 ^ 8 := (Nat.div_add_mod k _).symm
  rw [show (256 : Nat) = 2 ^ 8 from rfl, Nat.mul_comm a, Nat.mul_comm (a &&& _)]
  refine Nat.eq_of_testBit_eq fun j => ?_
  conv_lhs => rw [hsplit]
  rw [Nat.testBit_and, Nat.testBit_two_pow_mul_add a hb, Nat.testBit_two_pow_mul_add _ hk,
    Nat.testBit_two_pow_mul_add _ hand]
  split <;> rw [Nat.testBit_and]

/-- A pattern matches a number if it matches the last byte and what stands before it. -/
theorem and_concat_byte_eq_iff (a k m : Nat) (b : Byte) :
    (a * 256 + b.toNat) &&& k = m ↔ a &&& k / 256 = m / 256 ∧ b.toNat &&& k % 256 = m % 256 := by
  have hand : b.toNat &&& k % 256 < 2 ^ 8 := Nat.and_lt_two_pow _ (Nat.mod_lt k (by decide))
  rw [and_concat_byte]
  omega

theorem and_255_eq_iff (b : Byte) {n : Nat} (h : n < 256) : b.toNat &&& 255 = n ↔ b = BitVec.ofNat 8 n := by
  have hb : b.toNat &&& 255 = b.toNat := by rw [Nat.and_two_pow_sub_one_eq_mod _ 8, Nat.mod_eq_of_lt b.isLt]
  rw [hb, ← BitVec.toNat_inj, BitVec.toNat_ofNat, Nat.mod_eq_of_lt h]

theorem and_128_eq_zero_iff : ∀ b : Byte, b.toNat &&& 128 = 0 ↔ highBit b = false := by decide

theorem and_128_eq_128_iff : ∀ b : Byte, b.toNat &&& 128 = 128 ↔ highBit b = true := by decide

namespace OpcodeRow

@[simp] theorem matches_one_iff {r : OpcodeRow} (hr : r.lengthBytes = 1) (b0 : Byte) (bs : List Byte) :
    r.matches (b0 :: bs) = true ↔ b0.toNat &&& r.maskBits = r.matchBits := by
  simp [OpcodeRow.matches, hr, numberOf]

@[simp] theorem matches_two_iff {r : OpcodeRow} (hr : r.lengthBytes = 2) (b0 : Byte) (bs : List Byte) :
    r.matches (b0 :: bs) = true ↔ b0.toNat &&& r.maskBits / 256 = r.matchBits / 256 ∧
      ∃ b1 rest, bs = b1 :: rest ∧ b1.toNat &&& r.maskBits % 256 = r.matchBits % 256 := by
  cases bs with
  | nil => simp [OpcodeRow.matches, hr]
  | cons b1 bs => simp [OpcodeRow.matches, hr, numberOf, and_concat_byte_eq_iff]

@[simp] theorem matches_three_iff {r : OpcodeRow} (hr : r.lengthBytes = 3) (b0 : Byte) (bs : List Byte) :
    r.matches (b0 :: bs) = true ↔ b0.toNat &&& r.maskBits / 256 / 256 = r.matchBits / 256 / 256 ∧
      ∃ b1 b2 rest, bs = b1 :: b2 :: rest ∧ b1.toNat &&& r.maskBits / 256 % 256 = r.matchBits / 256 % 256 ∧
        b2.toNat &&& r.maskBits % 256 = r.matchBits % 256 := by
  match bs with
  | [] => simp [OpcodeRow.matches, hr]
  | [b1] => simp [OpcodeRow.matches, hr]
  | b1 :: b2 :: bs => simp [OpcodeRow.matches, hr, numberOf, and_concat_byte_eq_iff, and_assoc]

end OpcodeRow

/-! ## The rows of level sequence, form by form -/

theorem selectRow_lit {b0 : Byte} (h : markerOf b0 = none) (bs : List Byte) :
    (selectRow sequenceRows .ground (b0 :: bs)).map OpcodeRow.index = some (Instr.lit b0).rowIndex := by
  obtain ⟨h0, h1⟩ := (markerOf_eq_none_iff b0).mp h
  simp [sequenceRows, selectRow, betterRow, Instr.rowIndex, and_255_eq_iff, h0, h1]

/-- The second byte 0 matches the short run's pattern too, which has the higher priority number. -/
theorem selectRow_escLit (m : Marker) (bs : List Byte) :
    (selectRow sequenceRows .ground (m.byte :: 0x00#8 :: bs)).map OpcodeRow.index = some (escLitOf m).rowIndex := by
  cases m <;> simp [sequenceRows, selectRow, betterRow, Marker.byte, escLitOf, Instr.rowIndex]

theorem selectRow_runs (m : Marker) {b1 : Byte} (hz : b1 ≠ 0x00#8) (hb : highBit b1 = false) (bs : List Byte) :
    (selectRow sequenceRows .ground (m.byte :: b1 :: bs)).map OpcodeRow.index =
      some (runsOf m (low7 b1)).rowIndex := by
  cases m <;> simp [sequenceRows, selectRow, betterRow, Marker.byte, runsOf, Instr.rowIndex, and_255_eq_iff,
    and_128_eq_zero_iff, and_128_eq_128_iff, hz, hb]

theorem selectRow_runl (m : Marker) {b1 : Byte} (hb : highBit b1 = true) (b2 : Byte) (bs : List Byte) :
    (selectRow sequenceRows .ground (m.byte :: b1 :: b2 :: bs)).map OpcodeRow.index =
      some (runlOf m (low7 b1) b2).rowIndex := by
  have hz : b1 ≠ 0x00#8 := ne_zero_of_highBit hb
  cases m <;> simp [sequenceRows, selectRow, betterRow, Marker.byte, runlOf, Instr.rowIndex, and_255_eq_iff,
    and_128_eq_zero_iff, and_128_eq_128_iff, hz, hb]

/-! ## The rows of level micro-step, phase by phase -/

theorem selectRow_ground_marker (m : Marker) :
    (selectRow microStepRows .ground [m.byte]).map OpcodeRow.index = some (gEscOf m).rowIndex := by
  cases m <;> rfl

theorem selectRow_ground_lit {c : Byte} (h : markerOf c = none) :
    (selectRow microStepRows .ground [c]).map OpcodeRow.index = some (Instr.gLit c).rowIndex := by
  obtain ⟨h0, h1⟩ := (markerOf_eq_none_iff c).mp h
  simp [microStepRows, selectRow, betterRow, Instr.rowIndex, and_255_eq_iff, h0, h1]

theorem selectRow_escapeActive_low {c : Byte} (hz : c ≠ 0x00#8) (hb : highBit c = false) :
    (selectRow microStepRows .escapeActive [c]).map OpcodeRow.index = some (Instr.eRuns (low7 c)).rowIndex := by
  simp [microStepRows, selectRow, betterRow, Instr.rowIndex, and_255_eq_iff, and_128_eq_zero_iff, and_128_eq_128_iff,
    hz, hb]

theorem selectRow_escapeActive_high {c : Byte} (hb : highBit c = true) :
    (selectRow microStepRows .escapeActive [c]).map OpcodeRow.index = some (Instr.eRunlo (low7 c)).rowIndex := by
  have hz : c ≠ 0x00#8 := ne_zero_of_highBit hb
  simp [microStepRows, selectRow, betterRow, Instr.rowIndex, and_255_eq_iff, and_128_eq_zero_iff, and_128_eq_128_iff,
    hz, hb]

theorem selectRow_continuation (c : Byte) :
    (selectRow microStepRows .runLengthContinuation [c]).map OpcodeRow.index = some (Instr.cRunhi c).rowIndex := by
  simp [microStepRows, selectRow, betterRow, Instr.rowIndex]

/-- Settles O7: every answer of the two decoders is of the row selected for its form. -/
theorem decoderFollowsOpcodeTable : Obligations.DecoderFollowsOpcodeTable := by
  refine ⟨fun ph c => ?_, fun bs i rest hd => ?_⟩
  · obtain ⟨rfl, m, rfl, hd⟩ | ⟨rfl, hv, hd⟩ | ⟨m, rfl, rfl, hd⟩ | ⟨m, rfl, hz, hb, hd⟩ | ⟨m, rfl, hb, hd⟩ |
      ⟨m, p, rfl, hd⟩ := decodeByte_cases ph c <;> rw [hd]
    · exact selectRow_ground_marker m
    · exact selectRow_ground_lit hv
    · rfl
    · exact selectRow_escapeActive_low hz hb
    · exact selectRow_escapeActive_high hb
    · exact selectRow_continuation c
  · obtain ⟨b0, rfl, hv, rfl⟩ | ⟨m, ⟨rfl, rfl⟩ | ⟨b1, rfl, hz, hb, rfl⟩ | ⟨b1, b2, rfl, -, hb, rfl⟩⟩ :=
      decodeSequence_cases hd
    · exact selectRow_lit hv rest
    · exact selectRow_escLit m rest
    · exact selectRow_runs m hz hb rest
    · exact selectRow_runl m hb b2 rest

end Sys2Proof

/-! 30_encoding.md R54, and the rows that `exec` refuses outside their phase (log 15). -/

namespace Sys2Proof.Machine

/-- An emission longer than the capacity is one of the capacity: the excess leaves no trace (R63). -/
theorem emit_eq_of_capacity_le {n n' : Nat} {s : State} (h : 1024 - s.bytesWritten.toNat ≤ n)
    (h' : 1024 - s.bytesWritten.toNat ≤ n') (v : Byte) : emit n v s = emit n' v s := by
  have hmin : min n (capacity s) = min n' (capacity s) := (Nat.min_eq_right h).trans (Nat.min_eq_right h').symm
  simp only [emit, hmin]

/-- Settles O10: by `longLength_toNat`; from 8 on the high part alone makes 1024, which no capacity exceeds. -/
theorem longRunLengthAssembly : Obligations.LongRunLengthAssembly := by
  intro c1 c2 hb
  have hlow : (low7 c1).toNat = c1.toNat - 128 := low7_toNat_of_high c1 hb
  have h1 : c1.toNat < 256 := c1.isLt
  have h2 : c2.toNat < 256 := c2.isLt
  rw [longLength_toNat, hlow]
  exact ⟨rfl, by omega, fun h8 v s => emit_eq_of_capacity_le (by omega) (by omega) v⟩

theorem runSequence_wrongPhase {s : State} (h : s.phase ≠ .ground) (bytes n : Nat) (v : Byte) :
    runSequence bytes n v s = .refused .wrongPhase := by
  unfold runSequence
  split
  · exact absurd ‹_› h
  · rfl
  · rfl

theorem exec_sequence_wrongPhase {s : State} (h : s.phase ≠ .ground) {i : Instr} (hlevel : i.level = .sequence) :
    exec i s = .refused .wrongPhase := by
  cases i with
  | lit _ | escLit55 | runs55 _ | runl55 _ _ | escLitAA | runsAA _ | runlAA _ _ => exact runSequence_wrongPhase h _ _ _
  | gLit _ | gEsc55 | gEscAA | eLitm | eRuns _ | eRunlo _ | cRunhi _ | decodeFrame | reset => cases hlevel

theorem exec_groundRows_wrongPhase {s : State} (h : s.phase ≠ .ground) :
    (∀ v, exec (.gLit v) s = .refused .wrongPhase) ∧ exec .gEsc55 s = .refused .wrongPhase ∧
      exec .gEscAA s = .refused .wrongPhase := by
  cases hph : s.phase with
  | ground => exact absurd hph h
  | escapeActive _ | runLengthContinuation _ _ => simp [exec, execGLit, execGEsc55, execGEscAA, hph]

theorem exec_escapeActiveRows_wrongPhase {s : State} (h : s.phase.name ≠ .escapeActive) :
    exec .eLitm s = .refused .wrongPhase ∧ (∀ n, exec (.eRuns n) s = .refused .wrongPhase) ∧
      ∀ l, exec (.eRunlo l) s = .refused .wrongPhase := by
  cases hph : s.phase with
  | escapeActive _ => exact absurd (congrArg Phase.name hph) h
  | ground | runLengthContinuation _ _ => simp [exec, execELitm, execERuns, execERunlo, hph]

theorem exec_cRunhi_wrongPhase {s : State} (h : s.phase.name ≠ .runLengthContinuation) (b : Byte) :
    exec (.cRunhi b) s = .refused .wrongPhase := by
  cases hph : s.phase with
  | runLengthContinuation _ _ => exact absurd (congrArg Phase.name hph) h
  | ground | escapeActive _ => simp [exec, execCRunhi, hph]

/-- Settles O19: the rows of each phase refuse the other phases. -/
theorem rowsOutsideTheirPhaseAreRefused : Obligations.RowsOutsideTheirPhaseAreRefused := fun _ =>
  ⟨fun h _ hlevel => exec_sequence_wrongPhase h hlevel, exec_groundRows_wrongPhase, exec_escapeActiveRows_wrongPhase,
    exec_cRunhi_wrongPhase⟩

end Sys2Proof.Machine

/-! A whole call over a stream of complete sequences (42_decode_frame.md R82 to R89): the main loop runs one sequence after
another, and the bytes they stand for follow one another in the Frame Buffer. -/

namespace Sys2Proof.Machine

/-! ## Frame bytes written one after another -/

/-- `t` is `s` with the bytes `P` written at the cursor, clipped at the end of the Frame Buffer (R62, R63): `Emitted` for
bytes that need not be equal. -/
def Expanded (P : List Byte) (s t : State) : Prop :=
  t.bytesWritten.toNat = s.bytesWritten.toNat + min P.length (1024 - s.bytesWritten.toNat) ∧
  ∀ a, t.frameByte a =
    if s.bytesWritten.toNat ≤ a ∧ a < s.bytesWritten.toNat + min P.length (1024 - s.bytesWritten.toNat)
    then P[a - s.bytesWritten.toNat]? else s.frameByte a

theorem expanded_nil (s : State) : Expanded [] s s := by
  refine ⟨by simp, fun a => ?_⟩
  rw [if_neg (by simp)]

/-- A full buffer takes no byte. -/
theorem expanded_of_full {s : State} (h : s.bytesWritten.toNat = 1024) (P : List Byte) : Expanded P s s := by
  refine ⟨by simp [h], fun a => ?_⟩
  rw [if_neg (by omega)]

/-- Bytes written after others: the first ones, then as many of the others as there is room for. -/
theorem Expanded.append {P Q : List Byte} {s t u : State} (h : Expanded P s t) (h' : Expanded Q t u) :
    Expanded (P ++ Q) s u := by
  obtain ⟨hcur, hbyte⟩ := h
  obtain ⟨hcur', hbyte'⟩ := h'
  refine ⟨by rw [hcur', List.length_append]; omega, fun a => ?_⟩
  rw [hbyte' a, hbyte a, List.length_append]
  by_cases hfirst : s.bytesWritten.toNat ≤ a ∧ a < t.bytesWritten.toNat
  · rw [if_neg (by omega), if_pos (by omega), if_pos (by omega), List.getElem?_append_left (by omega)]
  · by_cases hthen : t.bytesWritten.toNat ≤ a ∧ a < u.bytesWritten.toNat
    · have hplace : a - s.bytesWritten.toNat - P.length = a - t.bytesWritten.toNat := by omega
      rw [if_pos (by omega), if_pos (by omega), List.getElem?_append_right (by omega), hplace]
    · rw [if_neg (by omega), if_neg (by omega), if_neg (by omega)]

/-- An emission writes copies of its byte. -/
theorem emit_expanded (n : Nat) (v : Byte) {s : State} (hs : Memory.wf s.frameBuffer) :
    Expanded (List.replicate n v) s (emit n v s) := by
  refine ⟨by rw [emit_cursor, List.length_replicate], fun a => ?_⟩
  rw [emit_frameByte n v hs, List.length_replicate]
  split
  · rw [List.getElem?_replicate, if_pos (by omega)]
  · rfl

/-! ## What a sequence does -/

theorem runSequence_ground {s : State} (h : s.phase = .ground) (bytes n : Nat) (v : Byte) :
    runSequence bytes n v s = .next (emit n v (advance bytes s)) := by
  simp only [runSequence, h]

/-- From Ground a sequence passes its bytes and emits the run it stands for (R74 to R77). -/
theorem exec_sequence_emits {i : Instr} (hlevel : i.level = .sequence) {s : State} (hph : s.phase = .ground) :
    ∃ n v, pixelsOf i = List.replicate n v ∧ exec i s = .next (emit n v (advance (encode i).length s)) := by
  cases i with
  | lit v => exact ⟨1, v, rfl, runSequence_ground hph 1 _ _⟩
  | escLit55 | escLitAA => exact ⟨1, _, rfl, runSequence_ground hph 2 _ _⟩
  | runs55 n | runsAA n => exact ⟨n.toNat, _, rfl, runSequence_ground hph 2 _ _⟩
  | runl55 l h | runlAA l h =>
    exact ⟨(longLength l h).toNat, _, by rw [longLength_toNat]; rfl, runSequence_ground hph 3 _ _⟩
  | gLit _ | gEsc55 | gEscAA | eLitm | eRuns _ | eRunlo _ | cRunhi _ | decodeFrame | reset => cases hlevel

theorem encode_length_le (i : Instr) : (encode i).length ≤ 3 := by
  cases i <;> simp [encode]

/-- A sequence has a byte, since the decoder reads it back and reads nothing from no bytes. -/
theorem encode_length_pos {i : Instr} (hwf : i.wf = true) (hlevel : i.level = .sequence) : 0 < (encode i).length := by
  refine List.length_pos_of_ne_nil fun hnil => ?_
  have hd : decodeSequence (encode i ++ []) = .ok i [] := sequenceRoundTrip i [] hwf hlevel
  rw [hnil] at hd
  cases hd

/-! ## The stream ahead of the position -/

theorem streamOf_cons (i : Instr) (is : List Instr) : streamOf (i :: is) = encode i ++ streamOf is := List.flatMap_cons

theorem pixels_cons (i : Instr) (is : List Instr) : pixels (i :: is) = pixelsOf i ++ pixels is := List.flatMap_cons

theorem streamOf_length_pos {is : List Instr} (hne : is ≠ []) (h : ∀ i ∈ is, i.wf = true ∧ i.level = .sequence) :
    0 < (streamOf is).length := by
  cases is with
  | nil => exact absurd rfl hne
  | cons i is =>
    obtain ⟨hwf, hlevel⟩ := h i List.mem_cons_self
    rw [streamOf_cons, List.length_append]
    exact Nat.add_pos_left (encode_length_pos hwf hlevel) _

/-- The bytes of the stream from `position` to `L`. -/
def StreamAhead (L : Config.PosWord) (bs : List Byte) (s : State) : Prop :=
  L.toNat = s.position.toNat + bs.length ∧
  ∀ k < bs.length, some (streamRead s (s.position.toNat + k)) = bs[k]?

theorem bytesFrom_eq_take {s : State} {L : Nat} {bs : List Byte} (n : Nat) {p : Nat} (hL : L = p + bs.length)
    (hbs : ∀ k < bs.length, some (streamRead s (p + k)) = bs[k]?) : bytesFrom s L n p = bs.take n := by
  induction n generalizing p bs with
  | zero => rfl
  | succ n ih =>
    cases bs with
    | nil => simp [bytesFrom, hL]
    | cons b bs =>
      have hb : streamRead s p = b := by simpa using hbs 0 (by simp)
      have hlt : p < L := by rw [List.length_cons] at hL; omega
      have htail : bytesFrom s L n (p + 1) = bs.take n := by
        refine ih (by rw [List.length_cons] at hL; omega) fun k hk => ?_
        simpa [Nat.add_assoc, Nat.add_comm 1] using hbs (k + 1) (by simpa using hk)
      simp only [bytesFrom, if_pos hlt, hb, htail, List.take_succ_cons]

/-- A step of level sequence fetches the next three bytes of the stream ahead. -/
theorem StreamAhead.fetchWindow {s : State} {L : Config.PosWord} {bs : List Byte} (h : StreamAhead L bs s)
    (hL : s.call = some L) : Machine.fetchWindow s = bs.take 3 := by
  obtain ⟨hlen, hbs⟩ := h
  simp only [Machine.fetchWindow, hL, bytesFrom_eq_take 3 hlen hbs]

/-- After some of its bytes the rest of the stream is ahead. -/
theorem StreamAhead.advance {s t : State} {L : Config.PosWord} {bs bs' : List Byte} (h : StreamAhead L (bs ++ bs') s)
    (hpos : t.position.toNat = s.position.toNat + bs.length) (hstream : t.stream = s.stream) : StreamAhead L bs' t := by
  obtain ⟨hlen, hbs⟩ := h
  rw [List.length_append] at hlen hbs
  refine ⟨by omega, fun k hk => ?_⟩
  have hbyte := hbs (bs.length + k) (by omega)
  rw [List.getElem?_append_right (by omega), Nat.add_sub_cancel_left] at hbyte
  rw [hpos, streamRead_same hstream, Nat.add_assoc]
  exact hbyte

/-! ## Where the main loop stands still, and what the end of a call reports -/

theorem loopExit_of_not_guards {s : State} (h : guardsHold s = false) : loopExit s = s := by
  rw [loopExit_unfold, h]; rfl

theorem loopExit_of_full {s : State} (h : s.bytesWritten.toNat = 1024) : loopExit s = s := by
  refine loopExit_of_not_guards (Bool.eq_false_iff.mpr fun hg => ?_)
  obtain ⟨L, -, hlt, -⟩ := guardsHold_iff.mp hg
  omega

theorem endCall_frameComplete_iff (s : State) : (endCall s).frameComplete = true ↔ s.bytesWritten.toNat = 1024 := by
  obtain ⟨hfull, h⟩ | ⟨hroom, h⟩ := endCall_cases s <;> rw [h]
  · exact iff_of_true rfl hfull
  · exact iff_of_false Bool.false_ne_true hroom

theorem endCall_bytesWritten_of_room {s : State} (hroom : s.bytesWritten.toNat ≠ 1024) :
    (endCall s).bytesWritten = s.bytesWritten := by
  obtain ⟨hfull, -⟩ | ⟨-, h⟩ := endCall_cases s
  · exact absurd hfull hroom
  · rw [h]

/-! ## The main loop over a list of sequences -/

/-- A call in progress at the start of a sequence: the stream ahead, to its end, is the encoding of `is` (R50). -/
structure AtSequences (L : Config.PosWord) (is : List Instr) (s : State) : Prop where
  /-- The call in progress has sampled `L`. -/
  call : s.call = some L
  /-- The Frame Buffer is in canonical form. -/
  wf : Memory.wf s.frameBuffer
  /-- `bytes_written <= FRAME_SIZE` (R21 (c)). -/
  cursorLe : s.bytesWritten.toNat ≤ 1024
  /-- No sequence is begun. -/
  ground : s.phase = .ground
  /-- Only sequences that have an encoding. -/
  sequences : ∀ i ∈ is, i.wf = true ∧ i.level = .sequence
  /-- Their encoding is the rest of the stream. -/
  ahead : StreamAhead L (streamOf is) s

/-- With room in the buffer the main loop runs the next sequence and goes on at the one after it. -/
theorem AtSequences.loopExit_cons {L : Config.PosWord} {i : Instr} {is : List Instr} {s : State}
    (h : AtSequences L (i :: is) s) (hroom : s.bytesWritten.toNat < 1024) :
    ∃ t, loopExit s = loopExit t ∧ AtSequences L is t ∧ Expanded (pixelsOf i) s t ∧
      t.position.toNat = s.position.toNat + (encode i).length := by
  obtain ⟨hcall, hwf, hcur, hph, hseq, hahead⟩ := h
  rw [streamOf_cons] at hahead
  obtain ⟨⟨hiwf, hilevel⟩, his⟩ := List.forall_mem_cons.mp hseq
  have hd : decodeSequence (fetchWindow s) = .ok i ((streamOf is).take (3 - (encode i).length)) := by
    rw [hahead.fetchWindow hcall, List.take_append, List.take_of_length_le (encode_length_le i)]
    exact sequenceRoundTrip i _ hiwf hilevel
  obtain ⟨k, -, -, hk⟩ := exec_sequence hcall hroom hph hd
  obtain ⟨n, v, hpix, hexec⟩ := exec_sequence_emits hilevel hph
  have hsteps : emit n v (advance (encode i).length s) = callLoop k s := Host.Outcome.next.inj (hexec.symm.trans hk)
  have hpos : (advance (encode i).length s).position.toNat = s.position.toNat + (encode i).length := by
    obtain ⟨hlen, -⟩ := hahead
    rw [List.length_append] at hlen
    have hlt : L.toNat < 2 ^ 32 := L.isLt
    exact advance_position_toNat (by omega)
  refine ⟨emit n v (advance (encode i).length s), by rw [hsteps, loopExit_callLoop], ?_, hpix ▸ emit_expanded n v hwf,
    hpos⟩
  exact {
    call := hcall
    wf := emit_wf n v hwf
    cursorLe := emit_cursor_le n v hcur
    ground := hph
    sequences := his
    ahead := hahead.advance hpos rfl }

theorem AtSequences.loopExit_nil {L : Config.PosWord} {s : State} (h : AtSequences L [] s) : loopExit s = s := by
  refine loopExit_of_not_guards (Bool.eq_false_iff.mpr fun hg => ?_)
  obtain ⟨L', hL', -, hlt⟩ := guardsHold_iff.mp hg
  obtain ⟨hlen, -⟩ := h.ahead
  cases h.call.symm.trans hL'
  simp [streamOf] at hlen
  omega

/-- The main loop writes all the bytes that the sequences stand for, clipped at the end of the Frame Buffer. -/
theorem AtSequences.loopExit_expanded {L : Config.PosWord} {is : List Instr} {s : State} (h : AtSequences L is s) :
    Expanded (pixels is) s (loopExit s) ∧ (loopExit s).phase = .ground := by
  induction is generalizing s with
  | nil =>
    rw [h.loopExit_nil]
    exact ⟨expanded_nil s, h.ground⟩
  | cons i is ih =>
    obtain hfull | hroom := Nat.eq_or_lt_of_le h.cursorLe
    · rw [loopExit_of_full hfull]
      exact ⟨expanded_of_full hfull _, h.ground⟩
    · obtain ⟨t, hexit, ht, hpix, -⟩ := h.loopExit_cons hroom
      obtain ⟨hrest, hground⟩ := ih ht
      rw [hexit, pixels_cons]
      exact ⟨hpix.append hrest, hground⟩

/-- Where the bytes fill the Frame Buffer the main loop stops directly after the first sequence that completes it. -/
theorem AtSequences.loopExit_position {L : Config.PosWord} {is : List Instr} {s : State} (h : AtSequences L is s)
    (hroom : s.bytesWritten.toNat < 1024) (hfill : 1024 ≤ s.bytesWritten.toNat + (pixels is).length) :
    ∃ k < is.length, (loopExit s).position.toNat = s.position.toNat + (streamOf (is.take (k + 1))).length ∧
      s.bytesWritten.toNat + (pixels (is.take k)).length < 1024 ∧
      1024 ≤ s.bytesWritten.toNat + (pixels (is.take (k + 1))).length := by
  induction is generalizing s with
  | nil => simp [pixels] at hfill; omega
  | cons i is ih =>
    obtain ⟨t, hexit, ht, ⟨hcur, -⟩, hpos⟩ := h.loopExit_cons hroom
    obtain hfull | hroom' := Nat.eq_or_lt_of_le ht.cursorLe
    · refine ⟨0, by simp, ?_, by simpa [pixels] using hroom, ?_⟩
      · rw [hexit, loopExit_of_full hfull, hpos]
        simp [streamOf]
      · have : 1024 ≤ s.bytesWritten.toNat + (pixelsOf i).length := by omega
        simpa [pixels] using this
    · have hcur' : t.bytesWritten.toNat = s.bytesWritten.toNat + (pixelsOf i).length := by omega
      rw [pixels_cons, List.length_append] at hfill
      obtain ⟨k, hk, hend, hbefore, hafter⟩ := ih ht hroom' (by omega)
      refine ⟨k + 1, by simpa using hk, ?_, ?_, ?_⟩
      · rw [hexit, hend, hpos, List.take_succ_cons, streamOf_cons, List.length_append, Nat.add_assoc]
      · rw [List.take_succ_cons, pixels_cons, List.length_append]; omega
      · rw [List.take_succ_cons, pixels_cons, List.length_append]; omega

/-- A call that has written nothing ends with the frame of the sequences ahead of it (R83, R84, R89). -/
theorem AtSequences.finishCall_frame {L : Config.PosWord} {is : List Instr} {s : State} (h : AtSequences L is s)
    (hstart : s.bytesWritten.toNat = 0) :
    ((finishCall s).frameComplete = true ↔ 1024 ≤ (pixels is).length) ∧
    (∀ a, (finishCall s).frameByte a =
      if a < min 1024 (pixels is).length then (pixels is)[a]? else s.frameByte a) ∧
    ((finishCall s).frameComplete = false →
      (finishCall s).bytesWritten.toNat = (pixels is).length ∧ (finishCall s).phase = .ground) ∧
    ((finishCall s).frameComplete = true → ∃ k < is.length,
      (finishCall s).position.toNat = s.position.toNat + (streamOf (is.take (k + 1))).length ∧
      (pixels (is.take k)).length < 1024 ∧ 1024 ≤ (pixels (is.take (k + 1))).length) := by
  obtain ⟨⟨hcur, hbyte⟩, hground⟩ := h.loopExit_expanded
  obtain ⟨-, -, -, -, -, -, hbuf, hpos, hph, -⟩ := endCall_same (loopExit s)
  simp only [hstart, Nat.zero_add, Nat.sub_zero, Nat.zero_le, true_and] at hcur hbyte
  have hdone : (finishCall s).frameComplete = true ↔ 1024 ≤ (pixels is).length := by
    rw [finishCall, endCall_frameComplete_iff, hcur]
    omega
  refine ⟨hdone, fun a => ?_, fun hfalse => ?_, fun htrue => ?_⟩
  · rw [frameByte_eq_read, finishCall, hbuf, ← frameByte_eq_read, hbyte, Nat.min_comm]
  · have hshort : ¬1024 ≤ (pixels is).length := fun hle => Bool.false_ne_true (hfalse.symm.trans (hdone.mpr hle))
    refine ⟨?_, hph.trans hground⟩
    rw [finishCall, endCall_bytesWritten_of_room (by omega), hcur]
    omega
  · obtain ⟨k, hk, hend, hsizes⟩ := h.loopExit_position (by omega) (Nat.le_add_left_of_le (hdone.mp htrue))
    rw [hstart, Nat.zero_add, Nat.zero_add] at hsizes
    exact ⟨k, hk, (congrArg BitVec.toNat hpos).trans hend, hsizes⟩

/-- Settles O41: acceptance starts the call at the first sequence, with no loop reset, since a sequence has a byte. -/
theorem decodeFrameExpandsTheStream : Obligations.DecodeFrameExpandsTheStream := by
  intro s is hinv hidle hph hbw hne hseq hlen hread
  have hbytes : 0 < (streamOf is).length := streamOf_length_pos hne hseq
  have haccept : acceptCall s = { s with call := some s.streamLen } := if_pos (by omega)
  have hstart : AtSequences s.streamLen is { s with call := some s.streamLen } :=
    ⟨rfl, hinv.bufferWf, hinv.cursorLe, hph, hseq, hlen, hread⟩
  refine ⟨_, execDecodeFrame_idle hidle, ?_⟩
  rw [haccept]
  exact hstart.finishCall_frame (congrArg BitVec.toNat hbw)

end Sys2Proof.Machine

/-! 40_emit_and_guards.md: emission (R61 to R64), the byte step and the fetch (R65, R82), and the three levels of step
(R66), which reach the same completion. -/

namespace Sys2Proof.Machine

/-! ## Emission -/

theorem emit_zero (v : Byte) (s : State) : emit 0 v s = s := by
  simp only [emit, Nat.zero_min, Memory.fill, BitVec.add_zero]

theorem emit_same (n : Nat) (v : Byte) (s : State) : SameElsewhere s (emit n v s) :=
  ⟨rfl, rfl, rfl, rfl, rfl, rfl, rfl, rfl⟩

/-- Settles O11: the cursor and the bytes as `emit_cursor` and `emit_frameByte` give them; lengths that reach the capacity
are clipped to the same run. -/
theorem emitWritesClippedRun : Obligations.EmitWritesClippedRun := fun n v s hwf =>
  ⟨⟨emit_cursor n v s, emit_frameByte n v hwf⟩, emit_same n v s, emit_position n v s, emit_phase n v s, emit_zero v s,
    fun _ h h' => emit_eq_of_capacity_le h h' v⟩

/-- Settles O12: the clipped run ends at the capacity, so inside the Frame Buffer. -/
theorem emitStaysInsideFrameBuffer : Obligations.EmitStaysInsideFrameBuffer := fun n v _ hbelow hcur =>
  ⟨emit_below n v hbelow hcur, emit_cursor_le n v hcur⟩

/-- Settles O9: marker by marker. -/
theorem runValueOfEachMarker : Obligations.RunValueOfEachMarker := by
  refine ⟨rfl, rfl, fun m => ?_⟩
  cases m with
  | m55 => decide
  | mAA => decide

/-! ## The byte step and the fetch -/

/-- Settles O26: the decoded micro-step never stops, and `byteStep_cases` says what it changes. -/
theorem byteStepDispatchesOnPhase : Obligations.ByteStepDispatchesOnPhase := fun s =>
  ⟨exec_decodeByte s, byteStep_position s, byteStep_same s⟩

/-- At the level of micro-steps, and outside Ground at every level, the byte at `position` is fetched as a micro-step. -/
theorem fetchInstr_microStep {s : State} (h : s.grain = .microStep ∨ s.phase ≠ .ground) :
    fetchInstr s = decodeByte s.phase (streamRead s s.position.toNat) := by
  unfold fetchInstr
  split
  · rename_i hgrain hph
    obtain h | h := h
    · exact absurd (hgrain.symm.trans h) (by decide)
    · exact absurd hph h
  · rfl

/-- At level sequence in Ground a complete sequence is fetched; where the stream cuts it, the micro-step. -/
theorem fetchInstr_sequence {s : State} (hgrain : s.grain = .sequence) (hph : s.phase = .ground) :
    fetchInstr s = (decodeSequence (fetchWindow s)).instr?.getD
      (decodeByte s.phase (streamRead s s.position.toNat)) := by
  unfold fetchInstr
  simp only [hgrain, hph]
  cases (decodeSequence (fetchWindow s)).instr? with
  | none => rfl
  | some i => rfl

/-- Which byte stands at place `k` of the bytes read ahead: none past the `n`-th or at the end of the stream. -/
theorem bytesFrom_getElem? (s : State) (L n i k : Nat) :
    (bytesFrom s L n i)[k]? = if k < n ∧ i + k < L then some (streamRead s (i + k)) else none := by
  induction n generalizing i k with
  | zero => simp [bytesFrom]
  | succ n ih =>
    by_cases hi : i < L
    · simp only [bytesFrom, if_pos hi]
      cases k with
      | zero => simp [hi]
      | succ k =>
        simp only [List.getElem?_cons_succ, ih, Nat.add_right_comm i 1 k, Nat.add_lt_add_iff_right, ← Nat.add_assoc]
    · simp only [bytesFrom, if_neg hi]
      rw [if_neg (by omega)]; rfl

theorem fetchWindow_byte {s : State} {L : Config.PosWord} (hL : s.call = some L) {k : Nat} (hk : k < 3) :
    (fetchWindow s)[k]? =
      if s.position.toNat + k < L.toNat then some (streamRead s (s.position.toNat + k)) else none := by
  simp only [fetchWindow, hL, bytesFrom_getElem?, hk, true_and]

/-- Settles O25: `step_call` with both guards, and the fetch by level of step and phase. -/
theorem stepRunsDecodedInstruction : Obligations.StepRunsDecodedInstruction := by
  intro s L hL hcmd hr hroom hpos
  have hg : guardsHold s = true := guardsHold_iff.mpr ⟨L, hL, hroom, hpos⟩
  refine ⟨fun hgrain => ?_, fetchInstr_microStep, fun hgrain hph i rest hd => ?_, fun hgrain hph why hd => ?_,
    fun k hk => fetchWindow_byte hL hk⟩
  · rw [step_call hL hcmd hr hgrain, if_pos hg]
  · rw [fetchInstr_sequence hgrain hph, hd]; rfl
  · rw [fetchInstr_sequence hgrain hph, hd]; rfl

/-! ## A call in progress at the finer levels of step -/

/-- `n` steps from `s` answer `o`, and the block is busy after every smaller positive number of them. -/
def CompletesIn (n : Nat) (s : State) (o : Host.Outcome State Fault Refusal) : Prop :=
  Host.Core.run Sys2Proof.core n s = o ∧
  ∀ k, 0 < k → k < n → ∃ u, Host.Core.run Sys2Proof.core k s = .next u ∧ u.busy = true

theorem run_succ {s t : State} (h : step s = .next t) (n : Nat) :
    Host.Core.run Sys2Proof.core (n + 1) s = Host.Core.run Sys2Proof.core n t := by
  have hcore : Sys2Proof.core.step s = .next t := h
  simp only [Host.Core.run, hcore]

theorem completesIn_one {s t : State} (h : step s = .next t) : CompletesIn 1 s (.next t) :=
  ⟨run_succ h 0, fun _ _ _ => by omega⟩

/-- One more step before the others, if the block is busy after it. -/
theorem CompletesIn.succ {n : Nat} {s t : State} {o : Host.Outcome State Fault Refusal} (ht : CompletesIn n t o)
    (h : step s = .next t) (hbusy : t.busy = true) : CompletesIn (n + 1) s o := by
  obtain ⟨hrun, hbefore⟩ := ht
  refine ⟨(run_succ h n).trans hrun, fun k hk hkn => ?_⟩
  obtain ⟨j, rfl⟩ := Nat.exists_eq_add_one.mpr hk
  rw [run_succ h j]
  obtain rfl | hj := Nat.eq_zero_or_pos j
  · exact ⟨t, rfl, hbusy⟩
  · exact hbefore j hj (by omega)

/-- A call in progress that no request and no reset disturbs, at one of the finer levels of step. -/
structure FineCall (s : State) : Prop where
  /-- The block is busy. -/
  busy : s.busy = true
  /-- No request is on the command port. -/
  command : s.command = none
  /-- The reset input is released. -/
  resetInput : s.resetInput = false
  /-- A step is a byte or a sequence. -/
  grain : s.grain = .microStep ∨ s.grain = .sequence

theorem FineCall.step_eq {s : State} (h : FineCall s) :
    step s = if guardsHold s then exec (fetchInstr s) s else .next (endCall s) := by
  obtain ⟨L, hL⟩ := Option.isSome_iff_exists.mp h.busy
  exact step_call hL h.command h.resetInput h.grain

theorem FineCall.callLoop {s : State} (h : FineCall s) (k : Nat) : FineCall (callLoop k s) := by
  obtain ⟨hcall, -, -, hcmd, hr, -, -, hgrain⟩ := callLoop_same k s
  exact {
    busy := (congrArg Option.isSome hcall).trans h.busy
    command := hcmd.trans h.command
    resetInput := hr.trans h.resetInput
    grain := hgrain ▸ h.grain }

/-- At least one guarded byte step leaves fewer bytes. -/
theorem remaining_callLoop_lt {k : Nat} (hk : 1 ≤ k) {s : State} (hg : guardsHold s = true) :
    remaining (callLoop k s) < remaining s := by
  obtain ⟨j, rfl⟩ := Nat.exists_eq_add_one.mpr hk
  have hstep : callLoop (j + 1) s = callLoop j (byteStep s) := if_pos hg
  have hle : remaining (callLoop j (byteStep s)) ≤ remaining (byteStep s) := remaining_callLoop_le j (byteStep s)
  have hone : remaining (byteStep s) + 1 = remaining s := remaining_byteStep hg
  rw [hstep]
  omega

/-- The rest of a call does not depend on how many of its byte steps have been made. -/
theorem finishCall_callLoop (k : Nat) (s : State) : finishCall (callLoop k s) = finishCall s :=
  congrArg endCall (loopExit_callLoop k s)

/-- Step by step a call comes to the state in which the rest of it, taken as one, ends (R66), within one step for every byte
that remains and one for the end (R86). -/
theorem FineCall.completes {s : State} (h : FineCall s) :
    ∃ n ≤ remaining s + 1, CompletesIn n s (.next (finishCall s)) := by
  induction hrem : remaining s using Nat.strong_induction_on generalizing s with
  | h r ih =>
    cases hg : guardsHold s with
    | false =>
      have hfinish : finishCall s = endCall s := congrArg endCall (loopExit_of_not_guards hg)
      have hstep : step s = .next (endCall s) := by rw [h.step_eq, hg]; rfl
      exact ⟨1, by omega, hfinish ▸ completesIn_one hstep⟩
    | true =>
      obtain ⟨k, hk, -, -, hexec⟩ := exec_fetchInstr hg
      have hstep : step s = .next (Machine.callLoop k s) := by rw [h.step_eq, if_pos hg, hexec]
      have hnext : FineCall (Machine.callLoop k s) := h.callLoop k
      have hless : remaining (Machine.callLoop k s) < r := hrem ▸ remaining_callLoop_lt hk hg
      obtain ⟨n, hn, hrest⟩ := ih _ hless hnext rfl
      rw [finishCall_callLoop] at hrest
      exact ⟨n + 1, by omega, hrest.succ hstep hnext.busy⟩

/-! ## A request of DECODE_FRAME at each level of step -/

/-- With a request and no call a step is the command's turn. -/
theorem step_command {s : State} {c : Command} (hidle : s.call = none) (hcmd : s.command = some c)
    (hr : s.resetInput = false) : step s = commandTurn c (takeRequest s) := by
  simp [step, turn, hidle, hcmd, hr]

theorem commandTurn_decodeFrame_host {s : State} (h : s.grain = .hostCommand) :
    commandTurn .decodeFrame s = exec .decodeFrame s := by
  simp only [commandTurn, h]

theorem commandTurn_decodeFrame_fine {s : State} (h : s.grain = .microStep ∨ s.grain = .sequence) :
    commandTurn .decodeFrame s = .next (acceptCall s) := by
  obtain h | h := h <;> simp only [commandTurn, h]

/-- At the finer levels the call is accepted as one in progress, with at most `STREAM_LEN` bytes to go. -/
theorem fineCall_acceptCall {s : State} (hcmd : s.command = none) (hr : s.resetInput = false)
    (hgrain : s.grain = .microStep ∨ s.grain = .sequence) :
    FineCall (acceptCall s) ∧ remaining (acceptCall s) ≤ s.streamLen.toNat := by
  obtain ⟨-, -, hcmd', hr', -, hgrain', -, -, hcall⟩ := acceptCall_same s
  refine ⟨⟨by simp [hcall], hcmd'.trans hcmd, hr'.trans hr, hgrain' ▸ hgrain⟩, ?_⟩
  simp only [remaining, hcall]
  exact Nat.sub_le _ _

/-- At the finer levels one step accepts the call, and `FineCall.completes` does the rest (R66, R86). -/
theorem completes_of_fine_request {s : State} (hidle : s.call = none) (hcmd : s.command = some .decodeFrame)
    (hr : s.resetInput = false) (hgrain : s.grain = .microStep ∨ s.grain = .sequence) :
    ∃ n ≤ s.streamLen.toNat + 2, CompletesIn n s (.next (finishCall (acceptCall (takeRequest s)))) := by
  have haccept : step s = .next (acceptCall (takeRequest s)) :=
    (step_command hidle hcmd hr).trans (commandTurn_decodeFrame_fine hgrain)
  obtain ⟨hcall, hrem⟩ := fineCall_acceptCall (s := takeRequest s) rfl hr hgrain
  rw [takeRequest_streamLen] at hrem
  obtain ⟨n, hn, hdone⟩ := hcall.completes
  exact ⟨n + 1, by omega, hdone.succ haccept hcall.busy⟩

/-- Settles O40: by the level of step. At that of host commands one step is the whole call; at the finer ones
`completes_of_fine_request`. -/
theorem everyLevelOfStepAgrees : Obligations.EveryLevelOfStepAgrees := by
  intro s hidle hcmd hr
  have hcall : exec .decodeFrame (takeRequest s) = .next (finishCall (acceptCall (takeRequest s))) :=
    execDecodeFrame_idle (s := takeRequest s) hidle
  suffices h : ∃ n ≤ s.streamLen.toNat + 2, CompletesIn n s (exec .decodeFrame (takeRequest s)) from h
  rw [hcall]
  cases hgrain : s.grain with
  | hostCommand =>
    have hstep : step s = .next (finishCall (acceptCall (takeRequest s))) :=
      (step_command hidle hcmd hr).trans ((commandTurn_decodeFrame_host (s := takeRequest s) hgrain).trans hcall)
    exact ⟨1, by omega, completesIn_one hstep⟩
  | microStep => exact completes_of_fine_request hidle hcmd hr (.inl hgrain)
  | sequence => exact completes_of_fine_request hidle hcmd hr (.inr hgrain)

end Sys2Proof.Machine

/-! 41_stream_bytes.md: the result and the frame of every micro-step (R68 to R73) and of every sequence (R74 to R77), and
each sequence as its micro-steps one after another. Lemmas that hold for both markers are stated with `gEscOf`, `escLitOf`,
`runsOf` and `runlOf`, which name a marker's rows. -/

namespace Sys2Proof.Machine

/-! ## A micro-step in the phase of its row -/

section InPhase

variable {s : State} {m : Marker} {p : BitVec 7}

theorem exec_gLit (h : s.phase = .ground) (v : Byte) : exec (.gLit v) s = .next (litStep v s) := by
  simp only [exec, execGLit, h]

theorem exec_gEscOf (h : s.phase = .ground) (m : Marker) : exec (gEscOf m) s = .next (escStep m s) := by
  cases m with
  | m55 => simp only [exec, gEscOf, execGEsc55, h]
  | mAA => simp only [exec, gEscOf, execGEscAA, h]

theorem exec_eLitm (h : s.phase = .escapeActive m) : exec .eLitm s = .next (litmStep m s) := by
  simp only [exec, execELitm, h]

theorem exec_eRuns (h : s.phase = .escapeActive m) (n : BitVec 7) : exec (.eRuns n) s = .next (runsStep m n s) := by
  simp only [exec, execERuns, h]

theorem exec_eRunlo (h : s.phase = .escapeActive m) (l : BitVec 7) : exec (.eRunlo l) s = .next (runloStep m l s) := by
  simp only [exec, execERunlo, h]

theorem exec_cRunhi (h : s.phase = .runLengthContinuation m p) (b : Byte) :
    exec (.cRunhi b) s = .next (runhiStep m p b s) := by
  simp only [exec, execCRunhi, h]

/-! ## A sequence in Ground -/

theorem exec_lit (h : s.phase = .ground) (v : Byte) : exec (.lit v) s = .next (emit 1 v (advance 1 s)) :=
  runSequence_ground h 1 1 v

theorem exec_escLitOf (h : s.phase = .ground) (m : Marker) :
    exec (escLitOf m) s = .next (emit 1 m.byte (advance 2 s)) := by
  cases m with
  | m55 | mAA => exact runSequence_ground h 2 _ _

theorem exec_runsOf (h : s.phase = .ground) (m : Marker) (n : BitVec 7) :
    exec (runsOf m n) s = .next (emit n.toNat (runValue m) (advance 2 s)) := by
  cases m with
  | m55 | mAA => exact runSequence_ground h 2 _ _

theorem exec_runlOf (h : s.phase = .ground) (m : Marker) (l : BitVec 7) (b : Byte) :
    exec (runlOf m l b) s = .next (emit (longLength l b).toNat (runValue m) (advance 3 s)) := by
  cases m with
  | m55 | mAA => exact runSequence_ground h 3 _ _

/-! ## Micro-steps one after another: the bytes they pass add up -/

theorem litmStep_escStep (h : s.phase = .ground) (m : Marker) :
    litmStep m (escStep m s) = emit 1 m.byte (advance 2 s) := by
  rw [← ground_emit h, ← advance_advance 1 1 s]; rfl

theorem runsStep_escStep (h : s.phase = .ground) (m : Marker) (n : BitVec 7) :
    runsStep m n (escStep m s) = emit n.toNat (runValue m) (advance 2 s) := by
  rw [← ground_emit h, ← advance_advance 1 1 s]; rfl

theorem runhiStep_runloStep_escStep (h : s.phase = .ground) (m : Marker) (l : BitVec 7) (b : Byte) :
    runhiStep m l b (runloStep m l (escStep m s)) = emit (longLength l b).toNat (runValue m) (advance 3 s) := by
  rw [← ground_emit h, ← advance_advance 2 1 s, ← advance_advance 1 1 s]; rfl

end InPhase

/-! ## Sequences as compositions -/

theorem andThen_assoc (o : Host.Outcome State Fault Refusal) (f g : State → Host.Outcome State Fault Refusal) :
    andThen (andThen o f) g = andThen o fun t => andThen (f t) g := by
  cases o with
  | next _ | fault _ | refused _ => rfl

theorem exec_gEscOf_wrongPhase {s : State} (h : s.phase ≠ .ground) (m : Marker) :
    exec (gEscOf m) s = .refused .wrongPhase := by
  obtain ⟨-, h55, hAA⟩ := exec_groundRows_wrongPhase h
  cases m with
  | m55 => exact h55
  | mAA => exact hAA

/-- A sequence that from Ground does what `f` does after its marker is `G.ESC` and then `f` in every state, since outside
Ground both are refused (log 15). -/
theorem exec_eq_gEscOf_andThen {i : Instr} (hlevel : i.level = .sequence) {m : Marker} {s : State}
    {f : State → Host.Outcome State Fault Refusal} (hground : s.phase = .ground → exec i s = f (escStep m s)) :
    exec i s = andThen (exec (gEscOf m) s) f := by
  by_cases h : s.phase = .ground
  · rw [hground h, exec_gEscOf h]; rfl
  · rw [exec_sequence_wrongPhase h hlevel, exec_gEscOf_wrongPhase h]; rfl

/-- R74. -/
theorem exec_lit_eq_gLit (v : Byte) (s : State) : exec (.lit v) s = exec (.gLit v) s := by
  by_cases h : s.phase = .ground
  · rw [exec_lit h, exec_gLit h]; rfl
  · obtain ⟨hlit, -⟩ := exec_groundRows_wrongPhase h
    rw [exec_sequence_wrongPhase h rfl, hlit]

/-- R75. -/
theorem exec_escLitOf_eq_andThen (m : Marker) (s : State) :
    exec (escLitOf m) s = andThen (exec (gEscOf m) s) (exec .eLitm) :=
  exec_eq_gEscOf_andThen (by cases m <;> rfl) fun h => by
    rw [exec_escLitOf h, exec_eLitm (s := escStep m s) rfl, litmStep_escStep h]

/-- R76. -/
theorem exec_runsOf_eq_andThen (m : Marker) (n : BitVec 7) (s : State) :
    exec (runsOf m n) s = andThen (exec (gEscOf m) s) (exec (.eRuns n)) :=
  exec_eq_gEscOf_andThen (by cases m <;> rfl) fun h => by
    rw [exec_runsOf h, exec_eRuns (s := escStep m s) rfl, runsStep_escStep h]

/-- R77. -/
theorem exec_runlOf_eq_andThen (m : Marker) (l : BitVec 7) (b : Byte) (s : State) :
    exec (runlOf m l b) s = andThen (andThen (exec (gEscOf m) s) (exec (.eRunlo l))) (exec (.cRunhi b)) := by
  rw [andThen_assoc]
  refine exec_eq_gEscOf_andThen (by cases m <;> rfl) fun h => ?_
  have hlow : exec (.eRunlo l) (escStep m s) = .next (runloStep m l (escStep m s)) := exec_eRunlo rfl l
  have hhigh : exec (.cRunhi b) (runloStep m l (escStep m s)) =
      .next (runhiStep m l b (runloStep m l (escStep m s))) := exec_cRunhi rfl b
  rw [exec_runlOf h, ← runhiStep_runloStep_escStep h, ← hhigh, hlow]; rfl

/-- Settles O24: the four equations, for both markers. -/
theorem sequencesAreTheirMicroSteps : Obligations.SequencesAreTheirMicroSteps := fun s =>
  ⟨fun v => exec_lit_eq_gLit v s, exec_escLitOf_eq_andThen .m55 s, exec_escLitOf_eq_andThen .mAA s,
    fun n => exec_runsOf_eq_andThen .m55 n s, fun n => exec_runsOf_eq_andThen .mAA n s,
    fun l h => exec_runlOf_eq_andThen .m55 l h s, fun l h => exec_runlOf_eq_andThen .mAA l h s⟩

/-! ## Result and frame -/

theorem sameElsewhere_setPhase_advance (ph : Phase) (k : Nat) (s : State) : SameElsewhere s (setPhase ph (advance k s)) :=
  ⟨rfl, rfl, rfl, rfl, rfl, rfl, rfl, rfl⟩

theorem nothingEmitted_setPhase_advance (ph : Phase) (k : Nat) (s : State) :
    NothingEmitted s (setPhase ph (advance k s)) := ⟨rfl, fun _ => rfl⟩

/-- What every row that emits shares: it passes its bytes, writes the clipped run, ends in Ground and changes nothing
else. -/
theorem ground_result_of_exec {i : Instr} {s : State} (hwf : Memory.wf s.frameBuffer) (k n : Nat) {v : Byte}
    (hexec : exec i s = .next (setPhase .ground (emit n v (advance k s)))) :
    ∃ t, exec i s = .next t ∧ t.position = s.position + BitVec.ofNat Config.posBits k ∧ t.phase = .ground ∧
      Emitted n v s t ∧ SameElsewhere s t :=
  ⟨_, hexec, rfl, rfl, ⟨emit_cursor n v (advance k s), emit_frameByte n v (s := advance k s) hwf⟩,
    emit_same n v (advance k s)⟩

/-- The same of a row that starts in Ground, where the emission alone leaves the phase. -/
theorem ground_result_of_exec_ground {i : Instr} {s : State} (hwf : Memory.wf s.frameBuffer) (hph : s.phase = .ground)
    (k n : Nat) {v : Byte} (hexec : exec i s = .next (emit n v (advance k s))) :
    ∃ t, exec i s = .next t ∧ t.position = s.position + BitVec.ofNat Config.posBits k ∧ t.phase = .ground ∧
      Emitted n v s t ∧ SameElsewhere s t :=
  ground_result_of_exec hwf k n (by rw [hexec, ground_emit hph])

theorem fields_of_ground {s : State} (h : s.phase = .ground) : s.escapeValue = none ∧ s.partialRunLength = none := by
  simp only [State.escapeValue, State.partialRunLength, h, and_self]

theorem escapeValue_of_escapeActive {s : State} {m : Marker} (h : s.phase = .escapeActive m) :
    s.escapeValue = some m.byte := by
  simp only [State.escapeValue, h]

/-! ## The micro-steps -/

/-- Settles O13: `G.LIT` is an emission of one byte from Ground. -/
theorem literalByteStep : Obligations.LiteralByteStep := fun v _ hwf hph =>
  ground_result_of_exec_ground hwf hph 1 1 (exec_gLit hph v)

/-- R69, for each marker. -/
theorem gEscOf_result {s : State} (h : s.phase = .ground) (m : Marker) :
    ∃ t, exec (gEscOf m) s = .next t ∧ t.position = s.position + 1 ∧ t.phase = .escapeActive m ∧
      t.escapeValue = some m.byte ∧ t.partialRunLength = none ∧ NothingEmitted s t ∧ SameElsewhere s t :=
  ⟨_, exec_gEscOf h m, rfl, rfl, rfl, rfl, nothingEmitted_setPhase_advance _ 1 s, sameElsewhere_setPhase_advance _ 1 s⟩

/-- Settles O14: both markers. -/
theorem escapeMarkerStep : Obligations.EscapeMarkerStep := fun _ hph =>
  ⟨gEscOf_result hph .m55, gEscOf_result hph .mAA⟩

/-- Settles O15: `E.LITM` emits the marker byte once. -/
theorem escapeLiteralStep : Obligations.EscapeLiteralStep := fun _ _ hwf hph =>
  ground_result_of_exec hwf 1 1 (exec_eLitm hph)

/-- Settles O16: `E.RUNS` emits its run. -/
theorem shortRunStep : Obligations.ShortRunStep := fun _ n _ hwf hph =>
  ground_result_of_exec hwf 1 n.toNat (exec_eRuns hph n)

/-- Settles O17: `E.RUNLO` changes the position and the phase alone, and the new phase remembers the same marker. -/
theorem longRunLowStep : Obligations.LongRunLowStep := fun m l s hph =>
  ⟨runloStep m l s, exec_eRunlo hph l, rfl, rfl, (escapeValue_of_escapeActive hph).symm, rfl,
    nothingEmitted_setPhase_advance _ 1 s, sameElsewhere_setPhase_advance _ 1 s⟩

/-- Settles O18: `C.RUNHI` emits the run of the combined length, `longLength_toNat`, and Ground has neither field. -/
theorem longRunHighStep : Obligations.LongRunHighStep := by
  intro m p h s hwf hph
  obtain ⟨t, hexec, hpos, hground, hrun, hsame⟩ := ground_result_of_exec hwf 1 _ (exec_cRunhi hph h)
  obtain ⟨hescape, hpartial⟩ := fields_of_ground hground
  rw [longLength_toNat] at hrun
  exact ⟨t, hexec, hpos, hground, hescape, hpartial, hrun, hsame⟩

/-! ## The sequences -/

/-- Settles O20: `LIT` is an emission of one byte from Ground. -/
theorem literalSequence : Obligations.LiteralSequence := fun v _ hwf hph =>
  ground_result_of_exec_ground hwf hph 1 1 (exec_lit hph v)

/-- Settles O21: both markers. -/
theorem escapeLiteralSequence : Obligations.EscapeLiteralSequence := fun _ hwf hph =>
  ⟨ground_result_of_exec_ground hwf hph 2 1 (exec_escLitOf hph .m55),
    ground_result_of_exec_ground hwf hph 2 1 (exec_escLitOf hph .mAA)⟩

/-- Settles O22: both markers. -/
theorem shortRunSequence : Obligations.ShortRunSequence := fun n _ hwf hph =>
  ⟨ground_result_of_exec_ground hwf hph 2 n.toNat (exec_runsOf hph .m55 n),
    ground_result_of_exec_ground hwf hph 2 n.toNat (exec_runsOf hph .mAA n)⟩

/-- Settles O23: both markers, with the length that `longLength_toNat` gives. -/
theorem longRunSequence : Obligations.LongRunSequence := by
  intro l h s hwf hph
  rw [← longLength_toNat]
  exact ⟨ground_result_of_exec_ground hwf hph 3 _ (exec_runlOf hph .m55 l h),
    ground_result_of_exec_ground hwf hph 3 _ (exec_runlOf hph .mAA l h)⟩

end Sys2Proof.Machine

/-! 42_decode_frame.md: acceptance and the end of a call, the whole call with its two ends, the loop reset, and the passes
over the stream that follow one another (R78 to R92). -/

namespace Sys2Proof.Machine

/-! ## The start of a pass -/

theorem fullReset_eq_self {s : State} (hpos : s.position = 0) (hph : s.phase = .ground) (hbw : s.bytesWritten = 0) :
    fullReset s = s := by
  cases s
  subst hpos hph hbw
  rfl

theorem State.Inv.fullReset {s : State} (hs : s.Inv) : (fullReset s).Inv :=
  .of_restarted hs.bufferWf hs.bufferBelow hs.streamWf rfl rfl rfl

theorem State.Steady.fullReset {s : State} (hs : s.Steady) : (fullReset s).Steady :=
  .of_restarted hs.inv.fullReset hs.callLen rfl rfl

/-- The full reset writes the whole Decoder State, so it leaves no difference there. -/
theorem SameElsewhere.fullReset {s t : State} (h : SameElsewhere s t) :
    SameButBuffer (Machine.fullReset s) (Machine.fullReset t) := ⟨h, rfl, rfl, rfl⟩

/-- After a full reset the loop reset changes nothing, so acceptance only samples `STREAM_LEN`. -/
theorem acceptCall_fullReset (s : State) : acceptCall (fullReset s) = { fullReset s with call := some s.streamLen } := by
  obtain ⟨-, h⟩ | ⟨-, h⟩ := acceptCall_cases (fullReset s) <;> rw [h] <;> rfl

theorem acceptCall_of_exhausted {s : State} (h : s.streamLen.toNat ≤ s.position.toNat) :
    acceptCall s = acceptCall (fullReset s) := by
  rw [acceptCall_fullReset]
  exact if_neg (Nat.not_lt.mpr h)

/-- A call that finds the stream exhausted is the call from the full reset (R80, R81). -/
theorem exec_decodeFrame_of_exhausted {s : State} (h : s.streamLen.toNat ≤ s.position.toNat) :
    exec .decodeFrame s = exec .decodeFrame (fullReset s) := by
  simp only [exec, execDecodeFrame, acceptCall_of_exhausted h]
  rfl

/-- In steady playback a call from the start of the stream, or from its end, is the call from the full reset: a cursor that
is not 0 is found at the end only. -/
theorem State.Steady.exec_decodeFrame_eq_fullReset {s : State} (hs : s.Steady) (hidle : s.call = none)
    (h : (s.position = 0 ∧ s.phase = .ground) ∨ s.position = s.streamLen) :
    exec .decodeFrame s = exec .decodeFrame (Machine.fullReset s) := by
  have hend (he : s.position = s.streamLen) : exec .decodeFrame s = exec .decodeFrame (Machine.fullReset s) :=
    exec_decodeFrame_of_exhausted (he ▸ Nat.le_refl _)
  obtain ⟨hpos, hph⟩ | he := h
  · obtain hbw | he := hs.idleStart hidle
    · rw [fullReset_eq_self hpos hph hbw]
    · exact hend he
  · exact hend he

/-! ## The two ends of a call -/

theorem endCall_room_of_false {s : State} (h : (endCall s).frameComplete = false) : s.bytesWritten.toNat ≠ 1024 :=
  fun hfull => Bool.false_ne_true (h.symm.trans ((endCall_frameComplete_iff s).mpr hfull))

/-- A call that returns false has consumed its stream (R84, R21 (e)). -/
theorem finishCall_position_of_false {s : State} (hs : s.Steady) {L : Config.PosWord} (hL : s.call = some L)
    (hfalse : (finishCall s).frameComplete = false) : (finishCall s).position = s.streamLen := by
  obtain ⟨hcall, -, hlen, -⟩ := loopExit_same s
  have hexit : (loopExit s).Steady := hs.callLoop _
  obtain ⟨-, -, -, -, -, -, -, hpos, -⟩ := endCall_same (loopExit s)
  calc (finishCall s).position = (loopExit s).position := hpos
    _ = (loopExit s).streamLen := hexit.exhausted (hcall.trans hL) (loopExit_guards s)
      (endCall_room_of_false hfalse)
    _ = s.streamLen := hlen

/-- The end of a call writes no byte. -/
theorem finishCall_frameBuffer (s : State) : (finishCall s).frameBuffer = (loopExit s).frameBuffer := by
  obtain ⟨-, -, -, -, -, -, hbuf, -⟩ := endCall_same (loopExit s)
  exact hbuf

/-- A call of steady playback starts at cursor 0 and writes the bytes that its cursor passes, no others. -/
theorem State.Steady.call_frameByte {s : State} (hs : s.Steady) (hidle : s.call = none) (a : Nat) :
    (a < (loopExit (acceptCall s)).bytesWritten.toNat →
      ((Machine.finishCall (acceptCall s)).frameByte a).isSome = true) ∧
    ((loopExit (acceptCall s)).bytesWritten.toNat ≤ a →
      (Machine.finishCall (acceptCall s)).frameByte a = s.frameByte a) := by
  obtain ⟨-, -, -, -, -, -, hbuf, -⟩ := acceptCall_same s
  have hzero : (acceptCall s).bytesWritten.toNat = 0 := by rw [acceptCall_bytesWritten_of_steady hs hidle]; rfl
  obtain ⟨-, hin, hout⟩ := loopExit_frameByte hs.inv.acceptCall.bufferWf a
  rw [frameByte_eq_read, finishCall_frameBuffer, frameByte_eq_read s, ← hbuf]
  exact ⟨hin (hzero ▸ Nat.zero_le a), fun h => hout (.inr h)⟩

/-! ## One pass run over the Frame Buffer of another -/

/-- The main loop of a second run, over the Frame Buffer that a first one left, comes to the state that the first one came
to: below the cursor it writes what stands there, and past it nothing. -/
theorem SameBelowCursor.loopExit_eq {s s' : State} (h : SameBelowCursor s s')
    (hbuf : s'.frameBuffer = (Machine.loopExit s).frameBuffer) : Machine.loopExit s' = Machine.loopExit s := by
  have hexit : SameBelowCursor (Machine.loopExit s) (Machine.loopExit s') := h.loopExit
  obtain ⟨b, hb⟩ := hexit.same.exists_eq
  have hsame : (Machine.loopExit s').frameBuffer = (Machine.loopExit s).frameBuffer := by
    refine Memory.ext_of_read hexit.wf' hexit.wf fun a => ?_
    obtain ⟨-, -, -, hbw⟩ := hexit.same
    obtain ⟨-, -, hout⟩ := loopExit_frameByte h.wf' a
    by_cases ha : a < (Machine.loopExit s).bytesWritten.toNat
    · exact (hexit.bytes a ha).symm
    · have hkept : (Machine.loopExit s').frameByte a = s'.frameByte a := hout (.inr (by rw [hbw]; omega))
      rw [← hbuf]
      exact hkept
  rw [hb] at hsame ⊢
  cases hsame
  rfl

/-! ## The status bit is written by a call, never read -/

/-- The status bit `frame_complete` at a given value. -/
def setFrameComplete (b : Bool) (s : State) : State := { s with frameComplete := b }

@[simp] theorem setFrameComplete_phase (b : Bool) (s : State) : (setFrameComplete b s).phase = s.phase := rfl
@[simp] theorem setFrameComplete_position (b : Bool) (s : State) : (setFrameComplete b s).position = s.position := rfl
@[simp] theorem setFrameComplete_bytesWritten (b : Bool) (s : State) :
    (setFrameComplete b s).bytesWritten = s.bytesWritten := rfl
@[simp] theorem streamRead_setFrameComplete (b : Bool) (s : State) (i : Nat) :
    streamRead (setFrameComplete b s) i = streamRead s i := rfl
@[simp] theorem guardsHold_setFrameComplete (b : Bool) (s : State) : guardsHold (setFrameComplete b s) = guardsHold s := rfl
@[simp] theorem remaining_setFrameComplete (b : Bool) (s : State) : remaining (setFrameComplete b s) = remaining s := rfl

theorem byteStep_setFrameComplete (b : Bool) (s : State) :
    byteStep (setFrameComplete b s) = setFrameComplete b (byteStep s) := by
  simp only [byteStep, setFrameComplete_phase, setFrameComplete_position, streamRead_setFrameComplete]
  cases s.phase with
  | ground => dsimp only; split <;> rfl
  | escapeActive m => simp only [apply_ite (setFrameComplete b)]; rfl
  | runLengthContinuation m p => rfl

theorem callLoop_setFrameComplete (b : Bool) (fuel : Nat) (s : State) :
    callLoop fuel (setFrameComplete b s) = setFrameComplete b (callLoop fuel s) := by
  induction fuel generalizing s with
  | zero => rfl
  | succ fuel ih =>
    simp only [callLoop, guardsHold_setFrameComplete, byteStep_setFrameComplete, ih]
    split <;> rfl

theorem endCall_setFrameComplete (b : Bool) (s : State) : endCall (setFrameComplete b s) = endCall s := by
  simp only [endCall, setFrameComplete_bytesWritten]
  rfl

theorem finishCall_setFrameComplete (b : Bool) (s : State) : finishCall (setFrameComplete b s) = finishCall s := by
  simp only [finishCall, loopExit, remaining_setFrameComplete, callLoop_setFrameComplete, endCall_setFrameComplete]

/-! ## The call from the full reset, made again -/

/-- What a call from the full reset answers. -/
def restartedCall (s : State) : State := finishCall (acceptCall (fullReset s))

theorem exec_decodeFrame_fullReset {s : State} (hidle : s.call = none) :
    exec .decodeFrame (fullReset s) = .next (restartedCall s) := execDecodeFrame_idle (s := fullReset s) hidle

theorem restartedCall_same (s : State) :
    (restartedCall s).call = none ∧ (restartedCall s).streamLen = s.streamLen ∧
    (restartedCall s).frameBuffer = (loopExit (acceptCall (fullReset s))).frameBuffer := by
  rw [restartedCall, acceptCall_fullReset]
  obtain ⟨-, hlen, -, -, -, -, hdone⟩ := finishCall_same { fullReset s with call := some s.streamLen }
  exact ⟨hdone, hlen, finishCall_frameBuffer _⟩

/-- The second call starts as the first one did, but for the status bit and the Frame Buffer. -/
theorem sameButBuffer_restartedCall (s : State) :
    SameButBuffer (acceptCall (fullReset s))
      (setFrameComplete s.frameComplete (acceptCall (fullReset (restartedCall s)))) := by
  rw [restartedCall, acceptCall_fullReset, acceptCall_fullReset]
  obtain ⟨hstream, hlen, hcmd, hr, hdraws, hgrain, -⟩ := finishCall_same { fullReset s with call := some s.streamLen }
  exact ⟨⟨congrArg some hlen, rfl, hlen, hcmd, hr, hstream, hdraws, hgrain⟩, rfl, rfl, rfl⟩

/-- The second call answers the very state that the first one answered. -/
theorem restartedCall_restartedCall {s : State} (hs : s.Inv) : restartedCall (restartedCall s) = restartedCall s := by
  have hinv (u : State) (hu : u.Inv) : (acceptCall (fullReset u)).Inv := hu.fullReset.acceptCall
  have hzero : (acceptCall (fullReset s)).bytesWritten = 0 := by rw [acceptCall_fullReset]; rfl
  have hagain : SameBelowCursor (acceptCall (fullReset s))
      (setFrameComplete s.frameComplete (acceptCall (fullReset (restartedCall s)))) := {
    same := sameButBuffer_restartedCall s
    wf := (hinv s hs).bufferWf
    wf' := (hinv (restartedCall s) (hinv s hs).finishCall).bufferWf
    bytes := by simp [hzero] }
  have hbuf : (acceptCall (fullReset (restartedCall s))).frameBuffer =
      (loopExit (acceptCall (fullReset s))).frameBuffer := by
    obtain ⟨-, -, hleft⟩ := restartedCall_same s
    rw [acceptCall_fullReset]
    exact hleft
  calc restartedCall (restartedCall s)
      = finishCall (setFrameComplete s.frameComplete (acceptCall (fullReset (restartedCall s)))) :=
        (finishCall_setFrameComplete _ _).symm
    _ = restartedCall s := congrArg endCall (hagain.loopExit_eq hbuf)

/-! ## The statements -/

/-- Settles O43: the call that finds the stream exhausted starts from the full reset, beside which
`runCalls_succ_sameAnswer` puts the other run. -/
theorem playbackLoops : Obligations.PlaybackLoops := by
  intro n s s0 hs hs0 hidle hsame hend hpos0 hph0 hbw0 hn
  obtain ⟨m, rfl⟩ := Nat.exists_eq_add_one.mpr hn
  have hstart : runCalls (m + 1) s = runCalls (m + 1) (fullReset s) := by
    simp only [runCalls, hs.exec_decodeFrame_eq_fullReset hidle (.inr hend)]
  have hbeside : SameButBuffer (fullReset s) s0 := fullReset_eq_self hpos0 hph0 hbw0 ▸ hsame.fullReset
  rw [hstart]
  exact runCalls_succ_sameAnswer m hs.fullReset hs0 hidle hbeside

/-- Settles O44: a call that returns false leaves the stream exhausted, so both calls are calls from the full reset. -/
theorem neverCompletingStreamRepeats : Obligations.NeverCompletingStreamRepeats := by
  intro s t hs hidle hstart hcall hfalse
  rw [hs.exec_decodeFrame_eq_fullReset hidle hstart, exec_decodeFrame_fullReset hidle] at hcall
  cases hcall
  obtain ⟨-, hlen', -, -, -, -, -, -, hbusy⟩ := acceptCall_same (fullReset s)
  obtain ⟨hdone, hlen, -⟩ := restartedCall_same s
  have hend : (restartedCall s).position = s.streamLen :=
    (finishCall_position_of_false (acceptCall_steady hs.inv.fullReset) hbusy hfalse).trans hlen'
  rw [exec_decodeFrame_of_exhausted (by rw [hlen, hend]), exec_decodeFrame_fullReset hdone,
    restartedCall_restartedCall hs.inv]

/-- Settles O34: steady playback holds after the call, whatever `STREAM_LEN` was before it. -/
theorem decodeFrameCompletes : Obligations.DecodeFrameCompletes := by
  intro s hs hidle
  obtain ⟨hstream, hlen, hcmd, hr, hdraws, hgrain, -, -, hcall⟩ := acceptCall_same s
  obtain ⟨hstream', hlen', hcmd', hr', hdraws', hgrain', hdone⟩ := finishCall_same (acceptCall s)
  have hsteady : (finishCall (acceptCall s)).Steady := finishCall_acceptCall_steady hs
  refine ⟨_, execDecodeFrame_idle hidle, hdone, fun htrue => ?_, fun hfalse => ⟨?_, hsteady.inv.idleCursor hdone⟩,
    hlen'.trans hlen, hcmd'.trans hcmd, hr'.trans hr, hstream'.trans hstream, hdraws'.trans hdraws, hgrain'.trans hgrain⟩
  · obtain ⟨hph, hbw⟩ := hsteady.inv.trueGround hdone htrue
    exact ⟨hbw, hph, hlen'.trans hlen ▸ hsteady.positionLe⟩
  · exact (finishCall_position_of_false (acceptCall_steady hs) hcall hfalse).trans hlen

/-- Settles O35: the main loop starts at cursor 0 and writes the bytes its cursor passes, no others. -/
theorem decodeFrameWritesExactlyItsFrame : Obligations.DecodeFrameWritesExactlyItsFrame := by
  intro s t hs hidle hexec
  cases (execDecodeFrame_idle hidle).symm.trans hexec
  have hbytes := hs.call_frameByte hidle
  refine ⟨fun htrue => ?_, fun hfalse => ?_⟩
  · rw [(endCall_frameComplete_iff _).mp htrue] at hbytes
    exact ⟨fun a => (hbytes a).1, fun a => (hbytes a).2⟩
  · rw [finishCall, endCall_bytesWritten_of_room (endCall_room_of_false hfalse)]
    exact ⟨fun a => (hbytes a).1, fun a => (hbytes a).2⟩

/-- Settles O27: a guard has failed, so the step is the end of the call. -/
theorem endOfCallStep : Obligations.EndOfCallStep := by
  intro s L hL hcmd hr hgrain
  have hstep (hg : ¬guardsHold s = true) : step s = .next (endCall s) := by rw [step_call hL hcmd hr hgrain, if_neg hg]
  rw [guardsHold_iff] at hstep
  refine ⟨fun hfull => ?_, fun hroom hend => ?_⟩
  · rw [hstep fun ⟨_, _, hlt, _⟩ => Nat.ne_of_lt hlt hfull]
    exact congrArg _ (if_pos hfull)
  · rw [hstep fun ⟨L', hL', _, hlt⟩ => by cases hL.symm.trans hL'; omega]
    exact congrArg _ (if_neg (Nat.ne_of_lt hroom))

/-- Settles O28: the step takes the request and accepts the call. -/
theorem acceptanceStep : Obligations.AcceptanceStep := by
  intro s hidle hcmd hr hgrain
  have hstep : step s = .next (acceptCall (takeRequest s)) :=
    (step_command hidle hcmd hr).trans (commandTurn_decodeFrame_fine hgrain)
  rw [hstep]
  exact ⟨fun hlt => congrArg _ (if_pos hlt), fun hend => congrArg _ (if_neg (Nat.not_lt.mpr hend))⟩

/-- Settles O36: both calls start from the full reset, which is defined by the fields it writes. -/
theorem loopResetRestartsAtZero : Obligations.LoopResetRestartsAtZero := fun _ h =>
  ⟨exec_decodeFrame_of_exhausted h, rfl, rfl, rfl, rfl, rfl, rfl, rfl, rfl, rfl, rfl, rfl, rfl, rfl⟩

/-- Settles O37: no position is before the end of an empty stream, so the call is the loop reset and the end. -/
theorem emptyStreamReturnsFalse : Obligations.EmptyStreamReturnsFalse := by
  intro s hidle hempty
  have haccept : acceptCall s = { fullReset s with call := some s.streamLen } := if_neg (by simp [hempty])
  have hexit : loopExit (acceptCall s) = acceptCall s := by
    refine loopExit_of_not_guards ?_
    rw [haccept]
    simp [guardsHold, streamNotExhausted, hempty]
  have hexec : exec .decodeFrame s = .next (endCall (loopExit (acceptCall s))) := execDecodeFrame_idle hidle
  rw [hexec, hexit, haccept]
  simp [endCall, hidle, fullReset]

/-- Settles O38: from an idle block `RESET` is the full reset and the bit cleared. -/
theorem resetCommandResult : Obligations.ResetCommandResult := fun _ hidle => execReset_idle hidle

/-- Settles O39: the commands and the host's issue of one test `busy` first. -/
theorem commandWhileBusyIsRefused : Obligations.CommandWhileBusyIsRefused := by
  intro s L hL
  have hbusy : s.busy = true := by simp [hL]
  exact ⟨if_pos hbusy, if_pos hbusy, fun _ => if_pos hbusy⟩

end Sys2Proof.Machine

/-! 60_exceptions.md: the block has no exception (R93), an idle block holds its state (R111), and one cycle of the Frame Pump
is one call of `DECODE_FRAME` and what the pump makes of its result (R104 to R107). -/

namespace Sys2Proof.Machine

/-! ## A step, by what it finds: a request while busy, an asserted reset input, a command, a call, or nothing -/

/-- A request that stands during a call is refused before anything else is looked at (R79, U1). -/
theorem step_request_while_busy {s : State} (hbusy : s.busy = true) (hcmd : s.command.isSome = true) :
    step s = .refused .commandWhileBusy :=
  if_pos (by rw [hbusy, hcmd]; rfl)

/-- Where the step is not that refusal, an asserted reset input comes first (R113). -/
theorem step_reset {s : State} (hfree : (s.busy && s.command.isSome) = false) (hr : s.resetInput = true) :
    step s = .next (hardwareReset s) := by
  simp only [step, turn, hfree, hr, Bool.false_eq_true, if_false, if_true]

/-- With no request and no reset a busy block takes a step of its call. -/
theorem step_callTurn {s : State} (hbusy : s.busy = true) (hcmd : s.command = none) (hr : s.resetInput = false) :
    step s = callTurn s := by
  simp only [step, turn, hbusy, hcmd, hr, Option.isSome_none, Bool.and_false, Bool.false_eq_true, if_false, if_true]

/-- With no call, no request and no reset a step changes nothing (R111). -/
theorem step_idle {s : State} (hidle : s.call = none) (hcmd : s.command = none) (hr : s.resetInput = false) :
    step s = .next s := by
  simp [step, turn, hidle, hcmd, hr]

/-- An idle block runs either command, at every level of step. -/
theorem commandTurn_next {s : State} (hidle : s.call = none) (c : Command) : ∃ t, commandTurn c s = .next t := by
  cases c with
  | reset => exact ⟨_, execReset_idle hidle⟩
  | decodeFrame =>
    cases hgrain : s.grain with
    | hostCommand => exact ⟨_, (commandTurn_decodeFrame_host hgrain).trans (execDecodeFrame_idle hidle)⟩
    | microStep => exact ⟨_, commandTurn_decodeFrame_fine (.inl hgrain)⟩
    | sequence => exact ⟨_, commandTurn_decodeFrame_fine (.inr hgrain)⟩

/-- A call never stops the machine: what it fetches is decoded in the state's own phase, so `exec` gives it a meaning. -/
theorem callTurn_next (s : State) : ∃ t, callTurn s = .next t := by
  have hfine : ∃ t, (if guardsHold s then exec (fetchInstr s) s else .next (endCall s)) = .next t := by
    split
    · obtain ⟨k, -, -, -, hexec⟩ := exec_fetchInstr ‹guardsHold s = true›
      exact ⟨_, hexec⟩
    · exact ⟨_, rfl⟩
  unfold callTurn
  cases s.grain with
  | hostCommand => exact ⟨_, rfl⟩
  | microStep => exact hfine
  | sequence => exact hfine

/-- But for a request while busy, every step answers a next state (R93). -/
theorem step_next {s : State} (hfree : (s.busy && s.command.isSome) = false) : ∃ t, step s = .next t := by
  cases hr : s.resetInput with
  | true => exact ⟨_, step_reset hfree hr⟩
  | false =>
    cases hcmd : s.command with
    | some c =>
      have hidle : s.call = none := by simpa [hcmd] using hfree
      rw [step_command hidle hcmd hr]
      exact commandTurn_next (s := takeRequest s) hidle c
    | none =>
      cases hbusy : s.busy with
      | true =>
        rw [step_callTurn hbusy hcmd hr]
        exact callTurn_next s
      | false => exact ⟨s, step_idle (by simpa using hbusy) hcmd hr⟩

/-- What a step can answer: the refusal of a request while busy, or a next state. -/
theorem step_refused_or_next (s : State) :
    (s.busy = true ∧ s.command.isSome = true ∧ step s = .refused .commandWhileBusy) ∨ ∃ t, step s = .next t := by
  cases hfree : s.busy && s.command.isSome with
  | true =>
    obtain ⟨hbusy, hcmd⟩ := Bool.and_eq_true_iff.mp hfree
    exact .inl ⟨hbusy, hcmd, step_request_while_busy hbusy hcmd⟩
  | false => exact .inr (step_next hfree)

/-- Settles O30: neither of the two answers of `step_refused_or_next` is a fault, and the first is the one refusal. -/
theorem noStepStops : Obligations.NoStepStops := by
  intro s
  obtain ⟨hbusy, hcmd, hstep⟩ | ⟨t, hstep⟩ := step_refused_or_next s
  · rw [hstep]
    refine ⟨nofun, fun r hr => ?_, fun _ _ => rfl⟩
    cases hr
    exact ⟨rfl, hbusy, hcmd⟩
  · refine ⟨?_, ?_, step_request_while_busy⟩ <;> rw [hstep] <;> nofun

/-- Settles O29: the statement is `step_idle`. -/
theorem idleBlockHoldsItsState : Obligations.IdleBlockHoldsItsState := fun _ => step_idle

/-! ## The Frame Pump -/

/-- The host's issue of a command to an idle block is taken. -/
theorem hostIssue_idle {s : State} (hidle : s.call = none) (hcmd : s.command = none) (hr : s.resetInput = false)
    (c : Command) : hostIssue c s = .next { s with command := some c } := by
  simp [hostIssue, hidle, hcmd, hr]

/-- A request put on an empty command port and taken off it again leaves the state as it was. -/
theorem takeRequest_request {s : State} (hcmd : s.command = none) (c : Option Command) :
    takeRequest { s with command := c } = s := by
  cases s
  subst hcmd
  rfl

/-- From an idle block one cycle of the pump is one call of `DECODE_FRAME` and what the pump does with its result. -/
theorem pumpCycle_idle {s : State} (hidle : s.call = none) (hcmd : s.command = none) (hr : s.resetInput = false)
    (frameRate elapsed : Nat) (ok : Bool) :
    pumpCycle frameRate elapsed ok s =
      .next (finishCall (acceptCall s), pumpActions frameRate elapsed ok (finishCall (acceptCall s))) := by
  simp only [pumpCycle, hostIssue_idle hidle hcmd hr, takeRequest_request hcmd, execDecodeFrame_idle hidle]

/-- After a false result the pump does nothing (R107). -/
theorem pumpActions_of_false {t : State} (h : t.frameComplete = false) (frameRate elapsed : Nat) (ok : Bool) :
    pumpActions frameRate elapsed ok t = [] := by
  simp [pumpActions, h]

/-- After a true result the pump renders the buffer once and sleeps what `pumpSleep` says (R106). -/
theorem pumpActions_of_true {t : State} (h : t.frameComplete = true) (frameRate elapsed : Nat) (ok : Bool) :
    pumpActions frameRate elapsed ok t = .render (frameSeen t) :: pumpSleep frameRate elapsed :=
  if_pos h

/-- At 20 frames a second the quotient of R105 is exact. -/
theorem pumpInterval_twenty : pumpInterval 20 = 50000 := if_pos (by decide)

theorem pumpSleep_of_lt {frameRate elapsed : Nat} (h : elapsed < pumpInterval frameRate) :
    pumpSleep frameRate elapsed = [.sleep (pumpInterval frameRate - elapsed)] := if_pos h

theorem pumpSleep_of_le {frameRate elapsed : Nat} (h : pumpInterval frameRate ≤ elapsed) :
    pumpSleep frameRate elapsed = [] := if_neg (Nat.not_lt.mpr h)

/-- Settles O53: `pumpCycle_idle`, then the pump's actions by the result and by the time that has passed. -/
theorem pumpCycleRendersCompleteFrames : Obligations.PumpCycleRendersCompleteFrames := by
  intro s elapsed ok _ hidle hcmd hr
  refine ⟨_, execDecodeFrame_idle hidle, fun hfalse => ?_, fun htrue hshort => ?_, fun htrue hlong => ?_⟩ <;>
    rw [pumpCycle_idle hidle hcmd hr]
  · rw [pumpActions_of_false hfalse]
  · rw [pumpActions_of_true htrue, pumpSleep_of_lt (pumpInterval_twenty ▸ hshort), pumpInterval_twenty]
  · rw [pumpActions_of_true htrue, pumpSleep_of_le (pumpInterval_twenty ▸ hlong)]

end Sys2Proof.Machine

/-! 70_reset_and_hazards.md: the reset input in and outside a call (R113 to R115). -/

namespace Sys2Proof.Machine

/-- With no request on the command port the reset is that of the block as it stands. -/
theorem hardwareReset_of_no_request {s : State} (hcmd : s.command = none) : hardwareReset s = resetBlock s := by
  simp only [hardwareReset, underway, hcmd]

/-- What `resetBlock` leaves alone beside the stream and `STREAM_LEN`, in and outside a call. -/
theorem resetBlock_same (s : State) :
    (resetBlock s).resetInput = s.resetInput ∧ (resetBlock s).command = s.command ∧ (resetBlock s).grain = s.grain := by
  unfold resetBlock
  split <;> exact ⟨rfl, rfl, rfl⟩

/-- Outside a call the Frame Buffer is unchanged (R114). -/
theorem resetBlock_frameBuffer_of_idle {s : State} (hidle : s.busy = false) :
    (resetBlock s).frameBuffer = s.frameBuffer := by
  rw [resetBlock, hidle]; rfl

/-- During a call the Frame Buffer is the abandoned call's (R115). -/
theorem resetBlock_frameBuffer_of_busy {s : State} (hbusy : s.busy = true) :
    (resetBlock s).frameBuffer = abandonedBuffer s := by
  rw [resetBlock, hbusy]; rfl

/-- The Frame Buffer of an abandoned call, byte by byte: a prefix of what the main loop would still write, in which no
index is skipped because the loop writes every byte that its cursor passes (R115, U7). -/
theorem abandonedBuffer_read {s : State} (hs : Memory.wf s.frameBuffer) :
    ∃ n, s.bytesWritten.toNat + n ≤ (loopExit s).bytesWritten.toNat ∧
      ∀ a, Memory.read (abandonedBuffer s) a =
        if s.bytesWritten.toNat ≤ a ∧ a < s.bytesWritten.toNat + n then (loopExit s).frameByte a
        else s.frameByte a := by
  obtain ⟨hcursor, -⟩ := loopExit_frameByte hs 0
  refine ⟨min (Config.abandonedWrites s.draws) ((loopExit s).bytesWritten.toNat - s.bytesWritten.toNat), by omega,
    fun a => ?_⟩
  rw [abandonedBuffer, Memory.read_copy hs]
  split
  case isTrue hin =>
    obtain ⟨hle, hlt⟩ := hin
    obtain ⟨-, hwritten, -⟩ := loopExit_frameByte hs a
    exact Option.or_of_isSome (hwritten hle (by omega))
  case isFalse => rfl

/-- Settles O46: the step is the reset of the block as it stands, and the Frame Buffer's case is that of `busy`. -/
theorem hardwareResetStep : Obligations.HardwareResetStep := by
  intro s hs hr hcmd
  have hstep : step s = .next (hardwareReset s) := step_reset (by simp [hcmd]) hr
  obtain ⟨hpos, hph, hbw, hcall, hdone, hstream, hlen⟩ := hardwareReset_fields s
  rw [hardwareReset_of_no_request hcmd] at hstep hpos hph hbw hcall hdone hstream hlen
  obtain ⟨hinput, hport, hgrain⟩ := resetBlock_same s
  refine ⟨resetBlock s, hstep, hpos, hph, hbw, by simp [hcall], hdone, hstream, hlen, hinput.trans hr, hport.trans hcmd,
    hgrain, resetBlock_frameBuffer_of_idle, fun hbusy => ?_⟩
  simp only [frameByte_eq_read (resetBlock s), resetBlock_frameBuffer_of_busy hbusy]
  exact abandonedBuffer_read hs.bufferWf

end Sys2Proof.Machine
